-- ==== Sys2Proof/Word.lean ====
section
/-! DEFINITION. The word of the DCPU-16 core and the two readings of it (rules R5, R6). -/

namespace Sys2Proof

/-- "A 16-bit unsigned value; the fundamental storage and addressing unit" (R5, R10). -/
abbrev Word := BitVec 16

/-- Half a word.  The core never sees one (R54); it is only how a memory cell is held as plain data (log entry 1). -/
abbrev Byte := BitVec 8

/-- `u16(v)` of R6: the exact integer `v` modulo 2^16. -/
def u16 (v : Int) : Word := BitVec.ofInt 16 v

/-- `s16(w)` of R6: the two's complement reading of a word, -32768..32767. -/
def s16 (w : Word) : Int := w.toInt

/-- The unsigned reading of a word as an exact integer, 0..65535 (R5, R6). -/
def uint (w : Word) : Int := (w.toNat : Int)

end Sys2Proof
end

