-- ==== Sys2Proof/Syntax.lean ====
section
/-! DEFINITION. The instructions as syntax: one constructor of `Instr` per row of spec/opcode_table.json. -/

namespace Sys2Proof

/-- The eight general registers, in the order of their index 0..7 (R20). -/
inductive Reg
  | A | B | C | X | Y | Z | I | J
deriving DecidableEq, Repr

/-- The two roles an operand is resolved in (R91): `a` is the right-hand side or source, `b` the left-hand side or
destination (R8). -/
inductive Role
  | a | b
deriving DecidableEq, Repr

/-- An operand: what a 6-bit operand code denotes, together with its next word where the code needs one (R72, R91). -/
inductive Operand
  /-- Codes 0x00..0x07: the register itself (R92). -/
  | reg (r : Reg)
  /-- Codes 0x08..0x0F: the cell the register addresses (R93). -/
  | ind (r : Reg)
  /-- Codes 0x10..0x17: the cell at register plus next word (R94). -/
  | idx (r : Reg) (n : Word)
  /-- Code 0x18: `POP` in role `a` (R95), `PUSH` in role `b` (R96). -/
  | pushPop
  /-- Code 0x19: `PEEK` (R97). -/
  | peek
  /-- Code 0x1A: `PICK n` (R98). -/
  | pick (n : Word)
  /-- Code 0x1B: the register `SP` (R99). -/
  | sp
  /-- Code 0x1C: the register `PC` (R100). -/
  | pc
  /-- Code 0x1D: the register `EX` (R101). -/
  | ex
  /-- Code 0x1E: the cell the next word addresses (R102). -/
  | mem (n : Word)
  /-- Code 0x1F: the next word as a read-only literal (R103). -/
  | lit (n : Word)
  /-- Codes 0x20..0x3F: the embedded literal of code `0x20 + k`, whose value is `k - 1` (R104). -/
  | small (k : BitVec 5)
deriving DecidableEq, Repr

/-- The 36 instructions (R76, R77).  Operands stand in the assembly order: destination `b` first, source `a` second. -/
inductive Instr
  | set (b a : Operand)
  | add (b a : Operand)
  | sub (b a : Operand)
  | mul (b a : Operand)
  | mli (b a : Operand)
  | div (b a : Operand)
  | dvi (b a : Operand)
  | mod (b a : Operand)
  | mdi (b a : Operand)
  | and (b a : Operand)
  | bor (b a : Operand)
  | xor (b a : Operand)
  | shr (b a : Operand)
  | asr (b a : Operand)
  | shl (b a : Operand)
  | ifb (b a : Operand)
  | ifc (b a : Operand)
  | ife (b a : Operand)
  | ifn (b a : Operand)
  | ifg (b a : Operand)
  | ifa (b a : Operand)
  | ifl (b a : Operand)
  | ifu (b a : Operand)
  | adx (b a : Operand)
  | sbx (b a : Operand)
  | sti (b a : Operand)
  | std (b a : Operand)
  | jsr (a : Operand)
  | int (a : Operand)
  | iag (a : Operand)
  | ias (a : Operand)
  | rfi (a : Operand)
  | iaq (a : Operand)
  | hwn (a : Operand)
  | hwq (a : Operand)
  | hwi (a : Operand)
deriving DecidableEq, Repr

/-- An instruction seen through its format: the basic format with its primary opcode (R70), or the extended format
with its extended opcode (R71). -/
inductive Shape
  | basic (o : BitVec 5) (b a : Operand)
  | extended (e : BitVec 5) (a : Operand)
deriving DecidableEq, Repr

end Sys2Proof
end

