-- ==== Sys2Proof/Machine/Regs.lean ====
section
/-! DEFINITION. The register file: eight general registers, none hardwired, banked or aliased (R20). -/

namespace Sys2Proof.Machine

/-- The general registers, each one word (R20). -/
structure Regs where
  a : Word
  b : Word
  c : Word
  x : Word
  y : Word
  z : Word
  i : Word
  j : Word
deriving DecidableEq, Repr, Inhabited

/-- `x[r]` of R7: the word a general register holds. -/
def readReg (g : Regs) : Reg → Word
  | .A => g.a | .B => g.b | .C => g.c | .X => g.x | .Y => g.y | .Z => g.z | .I => g.i | .J => g.j

/-- `x[r] <- v` of R7. -/
def writeReg (g : Regs) (r : Reg) (v : Word) : Regs :=
  match r with
  | .A => { g with a := v }
  | .B => { g with b := v }
  | .C => { g with c := v }
  | .X => { g with x := v }
  | .Y => { g with y := v }
  | .Z => { g with z := v }
  | .I => { g with i := v }
  | .J => { g with j := v }

end Sys2Proof.Machine
end

