-- ==== Sys2Proof/Config.lean ====
section
/-! DEFINITION. The parameters of the core (R4) and what a device may do when it is called (R309), which the spec
leaves open. -/

namespace Sys2Proof

/-- What an undefined instruction word does (R4, R232, R235). -/
inductive UndefMode
  /-- The normative policy: a fatal fault (R232). -/
  | fault
  /-- The optional policy, which only the host enables: the word is treated as a no-operation (R235). -/
  | nop
deriving DecidableEq, Repr

/-- The identity of an attached device: three constants for the whole run (R308). -/
structure Device where
  id : BitVec 32
  version : Word
  manufacturer : BitVec 32
deriving DecidableEq, Repr

/-- The parameters of R4 that are not fixed numbers.  The model holds them in the state, where no step writes them
(R33, log entry 2), so that a statement about every state is a statement about every choice of them. -/
structure Config where
  /-- The attached devices, in the order of attachment; their number is `NDEV` (R307, D19). -/
  devices : List Device
  /-- `UNDEF_MODE`. -/
  undefMode : UndefMode
  /-- `EXTRA_IAG` (R277, D14).  R4 leaves the three cycle parameters open; 0 to 4 are all the values of which R281
  holds, since an instruction costs at most 3 + 3 ticks and these three are at most two words long (R71, R72), DEDUCED
  (log entry 18). -/
  extraIag : Fin 5
  /-- `EXTRA_IAS` (R277, D14), with the same range (log entry 18). -/
  extraIas : Fin 5
  /-- `EXTRA_HWN` (R277, D14), with the same range (log entry 18). -/
  extraHwn : Fin 5
  /-- `SBX_EX_SIGNED` (R131, D8). -/
  sbxExSigned : Bool
  /-- `ASR_EX_SIGNED` (R154, D9). -/
  asrExSigned : Bool
deriving DecidableEq, Repr

/-- The defaults R4 gives, with no device attached yet (R272: devices are attached after reset). -/
def Config.default : Config where
  devices := []
  undefMode := .fault
  extraIag := 0
  extraIas := 0
  extraHwn := 1
  sbxExSigned := false
  asrExSigned := true

/-- What a called device can see of the core (R309): the registers and the memory; not `iq`, the queue, `tick` or
`halted`. -/
structure CoreView where
  regs : Machine.Regs
  pc : Word
  sp : Word
  ex : Word
  ia : Word
  mem : List Host.Cell
deriving DecidableEq, Repr

/-- What a called device can do to the core (R309): new values of the registers, and words written to memory, in
order. -/
structure DeviceEffect where
  regs : Machine.Regs
  pc : Word
  sp : Word
  ex : Word
  ia : Word
  writes : List (Word × Word)
deriving DecidableEq, Repr, Inhabited

/-- `DevInterrupt_i` of R309: the effect of the `k`-th device call of a run, on the device of index `i`, as a FREE
VALUE (log entry 3).  The spec leaves it open; nothing constrains it.  The call's number stands for the device's own
state, which may differ at every call. -/
opaque Config.devInterrupt (i k : Nat) (v : CoreView) : DeviceEffect

end Sys2Proof
end

