-- ==== Sys2Proof/Machine/Flags.lean ====
section
/-! DEFINITION. The arithmetic and logic unit: the result and the `EX` of each instruction, and the conditions of the
`IFx` instructions, each over exact integers as the rules write it (R6, R134). -/

namespace Sys2Proof.Machine

/-! ### Exact integers (R6) -/

/-- `v << n`: `v · 2^n`. -/
def shiftLeft (v : Int) (n : Nat) : Int := v * ((2 ^ n : Nat) : Int)

/-- `v >> n`: `floor(v / 2^n)`, the sign-propagating shift for a negative `v`. -/
def shiftRight (v : Int) (n : Nat) : Int := v / ((2 ^ n : Nat) : Int)

/-- `tdiv(n, d)`: the quotient rounded toward zero. -/
def truncDiv (n d : Int) : Int := n.sign * d.sign * ((n.natAbs / d.natAbs : Nat) : Int)

/-- `trem(n, d) = n - d·tdiv(n, d)`. -/
def truncRem (n d : Int) : Int := n - d * truncDiv n d

/-! ### Results and EX -/

/-- What an operation computes: the result for `b`, and the new `EX` if the operation writes `EX` (R108). -/
structure AluOut where
  result : Word
  ex : Option Word
deriving DecidableEq, Repr

/-- SET (R121). -/
def aluSet (_vb va : Word) : AluOut := ⟨va, none⟩

/-- ADD (R122). -/
def aluAdd (vb va : Word) : AluOut :=
  let r := uint vb + uint va
  ⟨u16 r, some (if r > 0xFFFF then 1 else 0)⟩

/-- SUB (R123). -/
def aluSub (vb va : Word) : AluOut :=
  let r := uint vb - uint va
  ⟨u16 r, some (if r < 0 then 0xFFFF else 0)⟩

/-- MUL (R124). -/
def aluMul (vb va : Word) : AluOut :=
  let p := uint vb * uint va
  ⟨u16 p, some (u16 (shiftRight p 16))⟩

/-- MLI (R125). -/
def aluMli (vb va : Word) : AluOut :=
  let p := s16 vb * s16 va
  ⟨u16 p, some (u16 (shiftRight p 16))⟩

/-- DIV (R126). -/
def aluDiv (vb va : Word) : AluOut :=
  if va = 0 then ⟨0, some 0⟩
  else ⟨u16 (uint vb / uint va), some (u16 (shiftLeft (uint vb) 16 / uint va))⟩

/-- DVI (R127). -/
def aluDvi (vb va : Word) : AluOut :=
  if va = 0 then ⟨0, some 0⟩
  else ⟨u16 (truncDiv (s16 vb) (s16 va)), some (u16 (truncDiv (shiftLeft (s16 vb) 16) (s16 va)))⟩

/-- MOD (R128): `EX` is not written, also for a zero divisor. -/
def aluMod (vb va : Word) : AluOut :=
  if va = 0 then ⟨0, none⟩ else ⟨u16 (uint vb % uint va), none⟩

/-- MDI (R129): `EX` is not written, also for a zero divisor. -/
def aluMdi (vb va : Word) : AluOut :=
  if va = 0 then ⟨0, none⟩ else ⟨u16 (truncRem (s16 vb) (s16 va)), none⟩

/-- ADX (R130): `ex` is `EX` before the instruction. -/
def aluAdx (vb va ex : Word) : AluOut :=
  let r := uint vb + uint va + uint ex
  ⟨u16 r, some (if r > 0xFFFF then 1 else 0)⟩

/-- SBX (R131): `ex` is `EX` before the instruction, read signed if `SBX_EX_SIGNED`. -/
def aluSbx (exSigned : Bool) (vb va ex : Word) : AluOut :=
  let r := uint vb - uint va + (if exSigned then s16 ex else uint ex)
  ⟨u16 r, some (if r < 0 then 0xFFFF else 0)⟩

/-- AND (R150). -/
def aluAnd (vb va : Word) : AluOut := ⟨vb &&& va, none⟩

/-- BOR (R151). -/
def aluBor (vb va : Word) : AluOut := ⟨vb ||| va, none⟩

/-- XOR (R152). -/
def aluXor (vb va : Word) : AluOut := ⟨vb ^^^ va, none⟩

/-- SHR (R153): the count is the whole word `va`. -/
def aluShr (vb va : Word) : AluOut :=
  ⟨u16 (shiftRight (uint vb) va.toNat), some (u16 (shiftRight (shiftLeft (uint vb) 16) va.toNat))⟩

/-- ASR (R154): `EX` from the signed value if `ASR_EX_SIGNED`, else from the unsigned one. -/
def aluAsr (exSigned : Bool) (vb va : Word) : AluOut :=
  ⟨u16 (shiftRight (s16 vb) va.toNat),
    some (u16 (shiftRight (shiftLeft (if exSigned then s16 vb else uint vb) 16) va.toNat))⟩

/-- SHL (R155). -/
def aluShl (vb va : Word) : AluOut :=
  let t := shiftLeft (uint vb) va.toNat
  ⟨u16 t, some (u16 (shiftRight t 16))⟩

/-! ### Conditions -/

/-- IFB (R171). -/
def condIfb (vb va : Word) : Bool := vb &&& va ≠ 0

/-- IFC (R172). -/
def condIfc (vb va : Word) : Bool := vb &&& va = 0

/-- IFE (R173). -/
def condIfe (vb va : Word) : Bool := vb = va

/-- IFN (R174). -/
def condIfn (vb va : Word) : Bool := vb ≠ va

/-- IFG (R175). -/
def condIfg (vb va : Word) : Bool := uint vb > uint va

/-- IFA (R176). -/
def condIfa (vb va : Word) : Bool := s16 vb > s16 va

/-- IFL (R177). -/
def condIfl (vb va : Word) : Bool := uint vb < uint va

/-- IFU (R178). -/
def condIfu (vb va : Word) : Bool := s16 vb < s16 va

/-! ### Cycles -/

/-- `ExtraCycles` (R277): the cycles an executed instruction costs besides one for each of its words. -/
def extraCycles (c : Config) : Instr → Nat
  | .set _ _ | .add _ _ | .sub _ _ | .and _ _ | .bor _ _ | .xor _ _ => 0
  | .mul _ _ | .mli _ _ | .shr _ _ | .shl _ _ | .asr _ _ | .adx _ _ | .sbx _ _ => 1
  | .div _ _ | .dvi _ _ | .mod _ _ | .mdi _ _ => 2
  | .ifb _ _ | .ifc _ _ | .ife _ _ | .ifn _ _ | .ifg _ _ | .ifa _ _ | .ifl _ _ | .ifu _ _ => 1
  | .sti _ _ | .std _ _ => 1
  | .jsr _ | .rfi _ => 2
  | .int _ | .hwq _ | .hwi _ => 3
  | .iaq _ => 1
  | .iag _ => c.extraIag
  | .ias _ => c.extraIas
  | .hwn _ => c.extraHwn

end Sys2Proof.Machine
end

