-- ==== Sys2Proof/WellFormed.lean ====
section
/-! DEFINITION. Which instruction terms an instruction word can carry. -/

namespace Sys2Proof

/-- Whether an operand can stand in the 5-bit `b` field: every form but an embedded literal, whose codes 0x20..0x3F
do not fit it (R73, conflict C4). -/
def Operand.fitsB : Operand → Bool
  | .small _ => false
  | .reg _ | .ind _ | .idx _ _ | .pushPop | .peek | .pick _ | .sp | .pc | .ex | .mem _ | .lit _ => true

/-- An instruction is well formed when its operands fit their fields: the 6-bit `a` field takes every form (R73, R79),
so only the destination of the basic format is checked. -/
def Instr.wellFormed : Instr → Bool
  | .set b _ | .add b _ | .sub b _ | .mul b _ | .mli b _ | .div b _ | .dvi b _ | .mod b _ | .mdi b _ | .and b _
  | .bor b _ | .xor b _ | .shr b _ | .asr b _ | .shl b _ | .ifb b _ | .ifc b _ | .ife b _ | .ifn b _ | .ifg b _
  | .ifa b _ | .ifl b _ | .ifu b _ | .adx b _ | .sbx b _ | .sti b _ | .std b _ => b.fitsB
  | .jsr _ | .int _ | .iag _ | .ias _ | .rfi _ | .iaq _ | .hwn _ | .hwq _ | .hwi _ => true

end Sys2Proof
end

