-- ==== Sys2Proof/Decode.lean ====
section
/-! DEFINITION. The decoder, total on every word (R81), and the encoder written from the same tables (R70..R78). -/

namespace Sys2Proof

/-- The general register of an index (R20). -/
def regOfIndex (k : BitVec 3) : Reg :=
  match k.toNat with
  | 0 => .A | 1 => .B | 2 => .C | 3 => .X | 4 => .Y | 5 => .Z | 6 => .I | _ => .J

/-- The index of a general register (R20). -/
def regIndex : Reg → BitVec 3
  | .A => 0 | .B => 1 | .C => 2 | .X => 3 | .Y => 4 | .Z => 5 | .I => 6 | .J => 7

/-- The primary opcode, bits 4:0 (R70). -/
def fieldO (w : Word) : BitVec 5 := w.extractLsb' 0 5

/-- Bits 9:5: the operand code `b` of the basic format (R70), the extended opcode of the extended format (R71). -/
def fieldB (w : Word) : BitVec 5 := w.extractLsb' 5 5

/-- The operand code `a`, bits 15:10 (R70, R71). -/
def fieldA (w : Word) : BitVec 6 := w.extractLsb' 10 6

/-- The instruction word `aaaaaabbbbbooooo` (R70, R71). -/
def packWord (a : BitVec 6) (b o : BitVec 5) : Word := a ++ b ++ o

/-- `NeedsWord(c)` of R72: the codes that take one more word. -/
def needsWord (c : BitVec 6) : Bool :=
  (0x10 ≤ c.toNat && c.toNat ≤ 0x17) || c.toNat == 0x1A || c.toNat == 0x1E || c.toNat == 0x1F

/-- `Footprint(w)` of R72: the words an instruction occupies, told from its first word alone, for undefined words
too (R181). -/
def footprint (w : Word) : Nat :=
  1 + (if needsWord (fieldA w) then 1 else 0)
    + (if fieldO w ≠ 0 ∧ needsWord ((fieldB w).setWidth 6) then 1 else 0)

/-- Whether the word's primary opcode is one of the eight conditional instructions, 0x10..0x17 (R179). -/
def isConditional (w : Word) : Bool := 0x10 ≤ (fieldO w).toNat && (fieldO w).toNat ≤ 0x17

/-- The operand a code denotes, given the word that follows (used only by the codes of `needsWord`) (R91). -/
def operandOf (c : BitVec 6) (next : Word) : Operand :=
  if c.toNat < 0x08 then .reg (regOfIndex (c.extractLsb' 0 3))
  else if c.toNat < 0x10 then .ind (regOfIndex (c.extractLsb' 0 3))
  else if c.toNat < 0x18 then .idx (regOfIndex (c.extractLsb' 0 3)) next
  else if c.toNat = 0x18 then .pushPop
  else if c.toNat = 0x19 then .peek
  else if c.toNat = 0x1A then .pick next
  else if c.toNat = 0x1B then .sp
  else if c.toNat = 0x1C then .pc
  else if c.toNat = 0x1D then .ex
  else if c.toNat = 0x1E then .mem next
  else if c.toNat = 0x1F then .lit next
  else .small (c.extractLsb' 0 5)

/-- The operand code of an operand (R91); code 0x18 in either role. -/
def operandCode : Operand → BitVec 6
  | .reg r => 0x00 + (regIndex r).setWidth 6
  | .ind r => 0x08 + (regIndex r).setWidth 6
  | .idx r _ => 0x10 + (regIndex r).setWidth 6
  | .pushPop => 0x18
  | .peek => 0x19
  | .pick _ => 0x1A
  | .sp => 0x1B
  | .pc => 0x1C
  | .ex => 0x1D
  | .mem _ => 0x1E
  | .lit _ => 0x1F
  | .small k => 0x20 + k.setWidth 6

/-- The next word an operand brings, if its code needs one (R72). -/
def operandNext : Operand → List Word
  | .idx _ n | .pick n | .mem n | .lit n => [n]
  | .reg _ | .ind _ | .pushPop | .peek | .sp | .pc | .ex | .small _ => []

/-- Operand `a` of an instruction word followed by the word `n₁` (R74). -/
def operandA (w n₁ : Word) : Operand := operandOf (fieldA w) n₁

/-- Operand `b` of an instruction word followed by `n₁` and `n₂`: its next word follows that of `a`, if `a` has one
(R74). -/
def operandB (w n₁ n₂ : Word) : Operand :=
  operandOf ((fieldB w).setWidth 6) (if needsWord (fieldA w) then n₂ else n₁)

/-- The primary opcodes (R76); the four undefined ones and 0x00 give none. -/
def primaryInstr (o : BitVec 5) (b a : Operand) : Option Instr :=
  match o.toNat with
  | 0x01 => some (.set b a)
  | 0x02 => some (.add b a)
  | 0x03 => some (.sub b a)
  | 0x04 => some (.mul b a)
  | 0x05 => some (.mli b a)
  | 0x06 => some (.div b a)
  | 0x07 => some (.dvi b a)
  | 0x08 => some (.mod b a)
  | 0x09 => some (.mdi b a)
  | 0x0A => some (.and b a)
  | 0x0B => some (.bor b a)
  | 0x0C => some (.xor b a)
  | 0x0D => some (.shr b a)
  | 0x0E => some (.asr b a)
  | 0x0F => some (.shl b a)
  | 0x10 => some (.ifb b a)
  | 0x11 => some (.ifc b a)
  | 0x12 => some (.ife b a)
  | 0x13 => some (.ifn b a)
  | 0x14 => some (.ifg b a)
  | 0x15 => some (.ifa b a)
  | 0x16 => some (.ifl b a)
  | 0x17 => some (.ifu b a)
  | 0x1A => some (.adx b a)
  | 0x1B => some (.sbx b a)
  | 0x1E => some (.sti b a)
  | 0x1F => some (.std b a)
  | _ => none

/-- The extended opcodes (R77); every other value is undefined. -/
def extendedInstr (e : BitVec 5) (a : Operand) : Option Instr :=
  match e.toNat with
  | 0x01 => some (.jsr a)
  | 0x08 => some (.int a)
  | 0x09 => some (.iag a)
  | 0x0A => some (.ias a)
  | 0x0B => some (.rfi a)
  | 0x0C => some (.iaq a)
  | 0x10 => some (.hwn a)
  | 0x11 => some (.hwq a)
  | 0x12 => some (.hwi a)
  | _ => none

/-- Why an instruction word is not an instruction (R78): its primary or its extended opcode is not in the tables. -/
inductive Undefined
  | primaryOpcode (o : BitVec 5)
  | extendedOpcode (e : BitVec 5)
deriving DecidableEq, Repr

/-- The decoder: an instruction word and the two words after it give the instruction and the number of words it
occupies, or the name of the undefined opcode (R70..R74, R78, R81). -/
def decode (w n₁ n₂ : Word) : Except Undefined (Instr × Nat) :=
  if fieldO w = 0 then
    match extendedInstr (fieldB w) (operandA w n₁) with
    | some i => .ok (i, footprint w)
    | none => .error (.extendedOpcode (fieldB w))
  else
    match primaryInstr (fieldO w) (operandB w n₁ n₂) (operandA w n₁) with
    | some i => .ok (i, footprint w)
    | none => .error (.primaryOpcode (fieldO w))

/-- The format and opcode of each instruction (R76, R77). -/
def instrShape : Instr → Shape
  | .set b a => .basic 0x01 b a
  | .add b a => .basic 0x02 b a
  | .sub b a => .basic 0x03 b a
  | .mul b a => .basic 0x04 b a
  | .mli b a => .basic 0x05 b a
  | .div b a => .basic 0x06 b a
  | .dvi b a => .basic 0x07 b a
  | .mod b a => .basic 0x08 b a
  | .mdi b a => .basic 0x09 b a
  | .and b a => .basic 0x0A b a
  | .bor b a => .basic 0x0B b a
  | .xor b a => .basic 0x0C b a
  | .shr b a => .basic 0x0D b a
  | .asr b a => .basic 0x0E b a
  | .shl b a => .basic 0x0F b a
  | .ifb b a => .basic 0x10 b a
  | .ifc b a => .basic 0x11 b a
  | .ife b a => .basic 0x12 b a
  | .ifn b a => .basic 0x13 b a
  | .ifg b a => .basic 0x14 b a
  | .ifa b a => .basic 0x15 b a
  | .ifl b a => .basic 0x16 b a
  | .ifu b a => .basic 0x17 b a
  | .adx b a => .basic 0x1A b a
  | .sbx b a => .basic 0x1B b a
  | .sti b a => .basic 0x1E b a
  | .std b a => .basic 0x1F b a
  | .jsr a => .extended 0x01 a
  | .int a => .extended 0x08 a
  | .iag a => .extended 0x09 a
  | .ias a => .extended 0x0A a
  | .rfi a => .extended 0x0B a
  | .iaq a => .extended 0x0C a
  | .hwn a => .extended 0x10 a
  | .hwq a => .extended 0x11 a
  | .hwi a => .extended 0x12 a

/-- The words of an instruction: the instruction word, then the next word of `a`, then that of `b` (R70..R74). -/
def encode (i : Instr) : List Word :=
  match instrShape i with
  | .basic o b a => packWord (operandCode a) ((operandCode b).setWidth 5) o :: (operandNext a ++ operandNext b)
  | .extended e a => packWord (operandCode a) e 0 :: operandNext a

/-- Word `k` of a number that holds an instruction with its first word in bits 15:0, when only `nbits` of its bits are
given and every higher bit is 0. -/
def tableWord (nbits w k : Nat) : Word := BitVec.ofNat 16 ((w % 2 ^ nbits) / 2 ^ (16 * k))

/-- The instruction the decoder reads from an instruction whose bits are `w`, numbered as spec/opcode_table.json
numbers them; the words above `nbits` are zero. -/
def decodeTableWord (nbits w : Nat) : Option Instr :=
  match decode (tableWord nbits w 0) (tableWord nbits w 1) (tableWord nbits w 2) with
  | .ok (i, _) => some i
  | .error _ => none

end Sys2Proof
end

