-- ==== Sys2Proof/Machine/State.lean ====
section
/-! DEFINITION. The state of the machine as plain data, its reset value, and the reasons a step can stop. -/

namespace Sys2Proof.Machine

/-- The cause of a fatal fault and what it records (R231).  A halted core is a state of the machine, not a stop of the
model: further steps do nothing (R234). -/
inductive Halt
  /-- Code 1: the undefined instruction word and its address. -/
  | undefinedOpcode (w addr : Word)
  /-- Code 2, "processor has caught fire": the message that could not be queued. -/
  | interruptQueueOverflow (m : Word)
deriving DecidableEq, Repr

/-- The memory as data: byte cells, two to a word, strictly rising, zero bytes left out (R32, log entry 1). -/
abbrev Memory := List Host.Cell

/-- Everything the spec gives the machine (R20..R33), the parameters (log entry 2), and `devCalls`, the model's own
counter behind the free value of a device call (log entry 3). -/
structure State where
  /-- `A B C X Y Z I J` (R20). -/
  regs : Regs
  /-- `PC` (R22). -/
  pc : Word
  /-- `SP` (R23). -/
  sp : Word
  /-- `EX` (R24). -/
  ex : Word
  /-- `IA` (R25). -/
  ia : Word
  /-- The tick counter (R27). -/
  tick : Word
  /-- The interrupt-queueing flag: `true` means queued-only delivery (R26). -/
  iq : Bool
  /-- The interrupt queue, head first (R29). -/
  queue : List Word
  /-- `none` while the core runs, the cause after a fatal fault (R31). -/
  halted : Option Halt
  /-- The memory (R32). -/
  mem : Memory
  /-- The parameters of R4, which no step writes. -/
  config : Config
  /-- How many device calls have been made: the argument that makes each call's free value fresh. -/
  devCalls : Nat
deriving DecidableEq, Repr

/-- The machine right after reset (R37, R270): every register 0, delivery off, the queue and the memory empty. -/
def State.reset : State where
  regs := { a := 0, b := 0, c := 0, x := 0, y := 0, z := 0, i := 0, j := 0 }
  pc := 0
  sp := 0
  ex := 0
  ia := 0
  tick := 0
  iq := false
  queue := []
  halted := none
  mem := []
  config := Config.default
  devCalls := 0

/-- Why a step has no next state though the spec gives the instruction a meaning. -/
inductive Fault
  /-- Raised by a failed `IFx` (IFB, IFC, IFE, IFN, IFG, IFA, IFL, IFU) whose skip meets conditional instructions all
  the way round memory and so never ends (R180, U8: `stuck`).  Safe: the machine makes no further progress there. -/
  | skipNeverEnds
deriving DecidableEq, Repr

/-- Why the model has no meaning to give. -/
inductive Refusal
  /-- Raised by an arm of `exec` whose instruction has no meaning yet; no arm is left.  Safe. -/
  | notModelled (mnemonic : String)
  /-- Raised by `boot` when more than 65535 devices are to be attached, which `HWN` could not count (R4, D19).
  Safe. -/
  | tooManyDevices
deriving DecidableEq, Repr

end Sys2Proof.Machine
end

