-- ==== Sys2Proof/Machine/Ops.lean ====
section
/-! DEFINITION. The named operations over memory, registers, the stack, the interrupt queue and faults (R7). -/

namespace Sys2Proof.Machine

/-! ### Memory (R32, R50..R52) -/

/-- What a byte cell that is not listed holds: memory is all zero before the host writes (R37, D3). -/
def unlistedByte : Byte := 0

/-- The byte of a cell. -/
def byteAt : Memory → Nat → Byte
  | [], _ => unlistedByte
  | (k', v) :: m, k => if k = k' then v else byteAt m k

/-- The memory with a cell put in front of the first higher one. -/
def insertCell (k : Nat) (v : Byte) : Memory → Memory
  | [] => [(k, v)]
  | (k', v') :: m => if k < k' then (k, v) :: (k', v') :: m else (k', v') :: insertCell k v m

/-- The memory with one byte cell replaced; a cell that holds what an unlisted one does is not listed. -/
def setByte (m : Memory) (k : Nat) (v : Byte) : Memory :=
  if v = unlistedByte then m.filter (fun c => c.1 ≠ k) else insertCell k v (m.filter (fun c => c.1 ≠ k))

/-- The cells from `lo` upward are strictly rising, hold no unlisted value, and lie among the 131072 half words. -/
def cellsFrom : Nat → Memory → Bool
  | _, [] => true
  | lo, (k, v) :: m => lo ≤ k && k < 131072 && v ≠ unlistedByte && cellsFrom (k + 1) m

/-- The canonical form of a memory: two memories in it that read alike are equal (log entry 1). -/
def Memory.wf (m : Memory) : Bool := cellsFrom 0 m

/-- The word in cell `a`: its bits 15:8 in byte cell `2a`, its bits 7:0 in byte cell `2a + 1` (R54, D29). -/
def readWord (m : Memory) (a : Word) : Word := byteAt m (2 * a.toNat) ++ byteAt m (2 * a.toNat + 1)

/-- The memory with cell `a` holding `v` (R51). -/
def writeWord (m : Memory) (a v : Word) : Memory :=
  setByte (setByte m (2 * a.toNat) (v.extractLsb' 8 8)) (2 * a.toNat + 1) (v.extractLsb' 0 8)

/-- `MemRead(a, 1)` (R51): plain storage, no side effect (R57). -/
def memRead (a : Word) (s : State) : Word := readWord s.mem a

/-- `MemWrite(a, 1, v)` (R51). -/
def memWrite (a v : Word) (s : State) : State := { s with mem := writeWord s.mem a v }

/-! ### Registers (R7) -/

/-- `x[r] <- v`. -/
def setReg (r : Reg) (v : Word) (s : State) : State := { s with regs := writeReg s.regs r v }

/-- `pc <- v` (R22). -/
def setPc (v : Word) (s : State) : State := { s with pc := v }

/-- `sp <- v` (R23). -/
def setSp (v : Word) (s : State) : State := { s with sp := v }

/-- `ex <- v` (R24). -/
def setEx (v : Word) (s : State) : State := { s with ex := v }

/-- `ia <- v` (R25). -/
def setIa (v : Word) (s : State) : State := { s with ia := v }

/-- `iq <- v` (R26). -/
def setIq (v : Bool) (s : State) : State := { s with iq := v }

/-- The interrupt queue replaced (R29). -/
def setQueue (q : List Word) (s : State) : State := { s with queue := q }

/-- `tick` advanced by `n` cycles, modulo 2^16 (R27). -/
def charge (n : Nat) (s : State) : State := { s with tick := s.tick + BitVec.ofNat 16 n }

/-- The count of device calls replaced (log entry 3). -/
def setDevCalls (n : Nat) (s : State) : State := { s with devCalls := n }

/-! ### Fetching (R72) -/

/-- `Fetch()` (R72): the word at `pc`; `pc` and `tick` go up by one each. -/
def fetch (s : State) : Word × State := (memRead s.pc s, charge 1 (setPc (s.pc + 1) s))

/-- The word `k` places after `pc`. -/
def wordAhead (k : Word) (s : State) : Word := memRead (s.pc + k) s

/-- What the decoder makes of the words at `pc`.  Reading a word has no side effect (R57), so that all three are read
whether or not the instruction has them. -/
def decodeAtPc (s : State) : Except Undefined (Instr × Nat) :=
  decode (wordAhead 0 s) (wordAhead 1 s) (wordAhead 2 s)

/-- The state after `n` calls of `Fetch()`: `pc` and `tick` go up by `n` each (R72, R276). -/
def advance (n : Nat) (s : State) : State := charge n (setPc (s.pc + BitVec.ofNat 16 n) s)

/-! ### The stack (R7, R23) -/

/-- `Push(v)`: `sp` goes down by one and the cell it then addresses gets `v`. -/
def push (v : Word) (s : State) : State := memWrite (s.sp - 1) v (setSp (s.sp - 1) s)

/-- `Pop()`: the word `sp` addresses; `sp` goes up by one. -/
def pop (s : State) : Word × State := (memRead s.sp s, setSp (s.sp + 1) s)

/-! ### Faults (R231, R234) -/

/-- `raise Fault(cause, info)`: the core enters the terminal halted state. -/
def raiseFault (h : Halt) (s : State) : State := { s with halted := some h }

/-! ### The interrupt queue, interrupt entry and return (R238..R244) -/

/-- `QUEUE_CAP` (R4). -/
def queueCap : Nat := 256

/-- `Enqueue(m)` (R238): the message joins the queue, or the queue is full and the core halts with the queue
unchanged (R233). -/
def enqueue (m : Word) (s : State) : State :=
  if queueCap ≤ s.queue.length then raiseFault (.interruptQueueOverflow m) s else setQueue (s.queue ++ [m]) s

/-- Interrupt entry with message `m` (R243): queueing on, `PC` and then `A` pushed, `PC` at the handler, `A` the
message. -/
def enterInterrupt (m : Word) (s : State) : State :=
  setReg .A m (setPc s.ia (push (readReg s.regs .A) (push s.pc (setIq true s))))

/-- Interrupt return (R244): queueing off, `A` popped, then `PC` popped. -/
def returnFromInterrupt (s : State) : State :=
  let (va, s₁) := pop (setIq false s)
  let (vp, s₂) := pop (setReg .A va s₁)
  setPc vp s₂

/-- `InterruptCheck()` (R239): with queueing off, the head of the queue is taken; it is delivered if `IA` is not 0,
else discarded (R240). -/
def interruptCheck (s : State) : State :=
  match s.iq, s.queue with
  | false, m :: q => if s.ia = 0 then setQueue q s else enterInterrupt m (setQueue q s)
  | _, _ => s

/-- The end of a step: the interrupt check, unless the instruction halted the core (R80, R239). -/
def boundary (s : State) : State :=
  match s.halted with
  | none => interruptCheck s
  | some _ => s

/-- The outcome of a step, from the outcome of its instruction. -/
def atBoundary : Host.Outcome State Fault Refusal → Host.Outcome State Fault Refusal
  | .next s => .next (boundary s)
  | .fault f => .fault f
  | .refused r => .refused r

/-! ### Skipping (R179) -/

/-- The loop of `Skip()` (R179), for at most `fuel` skipped instructions; `none` when the last of them is still a
conditional one. -/
def skipLoop : Nat → State → Option State
  | 0, _ => none
  | fuel + 1, s =>
    let w := memRead s.pc s
    let t := charge 1 (setPc (s.pc + BitVec.ofNat 16 (footprint w)) s)
    if isConditional w then skipLoop fuel t else some t

/-- `Skip()` (R179).  The loop changes only `pc` and `tick`, so that after 65536 conditional instructions `pc` has
come back to a word already passed and the loop never ends (R180, U8): then there is no result. -/
def skip (s : State) : Option State := skipLoop 65536 s

/-! ### Devices (R308, R309) -/

/-- `NDEV` (R4). -/
def deviceCount (s : State) : Nat := s.config.devices.length

/-- What a called device sees of the core (R309). -/
def coreView (s : State) : CoreView :=
  { regs := s.regs, pc := s.pc, sp := s.sp, ex := s.ex, ia := s.ia, mem := s.mem }

/-- The words of a list of writes put into memory, in order. -/
def writeAll : List (Word × Word) → Memory → Memory
  | [], m => m
  | (a, v) :: ws, m => writeAll ws (writeWord m a v)

/-- A device's effect on the core (R309): registers and memory; `iq`, the queue, `tick` and `halted` stay (D22). -/
def applyDeviceEffect (e : DeviceEffect) (s : State) : State :=
  { s with regs := e.regs, pc := e.pc, sp := e.sp, ex := e.ex, ia := e.ia, mem := writeAll e.writes s.mem }

/-- The call of the `Interrupt` operation of device `i` (R309), with the free value of this call (log entry 3). -/
def callDevice (i : Nat) (s : State) : State :=
  setDevCalls (s.devCalls + 1) (applyDeviceEffect (Config.devInterrupt i s.devCalls (coreView s)) s)

end Sys2Proof.Machine
end

