-- ==== Sys2Proof/Machine/Operands.lean ====
section
/-! DEFINITION. The operand resolver: addressing modes, loads and stores (40_operands.md), and the sampling of an
instruction's operands. -/

namespace Sys2Proof.Machine

/-- A location (R90): what an operand denotes, computed once and used for its read and its write. -/
inductive Loc
  | reg (r : Reg)
  | mem (addr : Word)
  | spReg
  | pcReg
  | exReg
  /-- A read-only literal holder: a write is dropped. -/
  | lit (v : Word)
deriving DecidableEq, Repr

/-- The word of an embedded literal (R75, R104): code `0x20 + k` has the value `code - 0x21`, that is `k - 1`. -/
def smallValue (k : BitVec 5) : Word := k.setWidth 16 - 1

/-- `Resolve(code, role)` of R91.  Its `Fetch()` of a next word is part of decoding here: the word stands in the
operand, and `pc` and `tick` already count it; what is left of resolution is the location and the change of `sp`. -/
def resolve (role : Role) (op : Operand) (s : State) : Loc × State :=
  match op with
  | .reg r => (.reg r, s)
  | .ind r => (.mem (readReg s.regs r), s)
  | .idx r n => (.mem (n + readReg s.regs r), s)
  | .pushPop =>
    match role with
    | .a => (.mem s.sp, setSp (s.sp + 1) s)
    | .b => (.mem (s.sp - 1), setSp (s.sp - 1) s)
  | .peek => (.mem s.sp, s)
  | .pick n => (.mem (s.sp + n), s)
  | .sp => (.spReg, s)
  | .pc => (.pcReg, s)
  | .ex => (.exReg, s)
  | .mem n => (.mem n, s)
  | .lit n => (.lit n, s)
  | .small k => (.lit (smallValue k), s)

/-- `Load(loc)` (R105). -/
def load (l : Loc) (s : State) : Word :=
  match l with
  | .reg r => readReg s.regs r
  | .mem a => memRead a s
  | .spReg => s.sp
  | .pcReg => s.pc
  | .exReg => s.ex
  | .lit v => v

/-- `Store(loc, v)` (R106): a write to a literal is dropped silently. -/
def store (l : Loc) (v : Word) (s : State) : State :=
  match l with
  | .reg r => setReg r v s
  | .mem a => memWrite a v s
  | .spReg => setSp v s
  | .pcReg => setPc v s
  | .exReg => setEx v s
  | .lit _ => s

/-- The operands of a basic instruction once both are resolved and their values sampled (R107). -/
structure Sampled where
  la : Loc
  lb : Loc
  va : Word
  vb : Word
  st : State
deriving DecidableEq, Repr

/-- Operand `a` is resolved, then `b`; then both values are read, before the operation writes anything (R91, R107). -/
def sample (b a : Operand) (s : State) : Sampled :=
  let (la, s₁) := resolve .a a s
  let (lb, s₂) := resolve .b b s₁
  { la := la, lb := lb, va := load la s₂, vb := load lb s₂, st := s₂ }

/-- The operand of an extended instruction once it is resolved, in role `a`, and its value sampled (R111). -/
structure SampledA where
  la : Loc
  va : Word
  st : State
deriving DecidableEq, Repr

/-- The single operand of an extended instruction, resolved in role `a` with its side effects (R111). -/
def sampleA (a : Operand) (s : State) : SampledA :=
  let (la, s₁) := resolve .a a s
  { la := la, va := load la s₁, st := s₁ }

end Sys2Proof.Machine
end

