-- ==== Sys2Proof/Machine/Shapes.lean ====
section
/-! DEFINITION. The common frames of the instruction families: the arithmetic and logic template (R120), the
conditional template (R170) and the extended template (R208). -/

namespace Sys2Proof.Machine

/-- `ex <- v`, if the operation writes `EX`. -/
def setExIf (v : Option Word) (s : State) : State :=
  match v with
  | some w => setEx w s
  | none => s

/-- The writes of an arithmetic or logic instruction, in the order of R108: `EX`, then the result to `b`. -/
def writeBack (lb : Loc) (o : AluOut) (s : State) : State := store lb o.result (setExIf o.ex s)

/-- The template of R120: operands sampled, the extra cycles charged, the operation's writes done. -/
def runAlu (i : Instr) (b a : Operand) (f : Word → Word → AluOut) (s : State) : State :=
  let p := sample b a s
  writeBack p.lb (f p.vb p.va) (charge (extraCycles s.config i) p.st)

/-- The template of R170: operands sampled, the extra cycle charged; if the condition fails, the skip. -/
def runConditional (i : Instr) (b a : Operand) (cond : Word → Word → Bool) (s : State) :
    Host.Outcome State Fault Refusal :=
  let p := sample b a s
  let t := charge (extraCycles s.config i) p.st
  if cond p.vb p.va then .next t
  else
    match skip t with
    | some u => .next u
    | none => .fault .skipNeverEnds

/-- The template of R208: the operand sampled, the extra cycles charged, then the instruction's action on the
operand's location and value. -/
def runExtended (i : Instr) (a : Operand) (act : Loc → Word → State → State) (s : State) : State :=
  let p := sampleA a s
  act p.la p.va (charge (extraCycles s.config i) p.st)

end Sys2Proof.Machine
end

