-- ==== Sys2Proof/Machine/Conditional.lean ====
section
/-! DEFINITION. The eight conditional instructions (43_conditional.md). -/

namespace Sys2Proof.Machine

/-- IFB (R171). -/
def execIfb (b a : Operand) (s : State) : Host.Outcome State Fault Refusal :=
  runConditional (.ifb b a) b a condIfb s

/-- IFC (R172). -/
def execIfc (b a : Operand) (s : State) : Host.Outcome State Fault Refusal :=
  runConditional (.ifc b a) b a condIfc s

/-- IFE (R173). -/
def execIfe (b a : Operand) (s : State) : Host.Outcome State Fault Refusal :=
  runConditional (.ife b a) b a condIfe s

/-- IFN (R174). -/
def execIfn (b a : Operand) (s : State) : Host.Outcome State Fault Refusal :=
  runConditional (.ifn b a) b a condIfn s

/-- IFG (R175). -/
def execIfg (b a : Operand) (s : State) : Host.Outcome State Fault Refusal :=
  runConditional (.ifg b a) b a condIfg s

/-- IFA (R176). -/
def execIfa (b a : Operand) (s : State) : Host.Outcome State Fault Refusal :=
  runConditional (.ifa b a) b a condIfa s

/-- IFL (R177). -/
def execIfl (b a : Operand) (s : State) : Host.Outcome State Fault Refusal :=
  runConditional (.ifl b a) b a condIfl s

/-- IFU (R178). -/
def execIfu (b a : Operand) (s : State) : Host.Outcome State Fault Refusal :=
  runConditional (.ifu b a) b a condIfu s

end Sys2Proof.Machine
end

