-- ==== Sys2Proof/Machine/Control.lean ====
section
/-! DEFINITION. JSR (44_jsr_control.md).  Jumps need no meaning of their own: they are writes to `PC` (R191). -/

namespace Sys2Proof.Machine

/-- JSR (R190): the target is sampled before the return address is pushed. -/
def execJsr (a : Operand) (s : State) : Host.Outcome State Fault Refusal :=
  .next (runExtended (.jsr a) a (fun _ va t => setPc va (push t.pc t)) s)

end Sys2Proof.Machine
end

