-- ==== Sys2Proof/Machine/LogicShift.lean ====
section
/-! DEFINITION. Bitwise logic and shifts (42_logic_shift.md). -/

namespace Sys2Proof.Machine

/-- AND (R150). -/
def execAnd (b a : Operand) (s : State) : Host.Outcome State Fault Refusal :=
  .next (runAlu (.and b a) b a aluAnd s)

/-- BOR (R151). -/
def execBor (b a : Operand) (s : State) : Host.Outcome State Fault Refusal :=
  .next (runAlu (.bor b a) b a aluBor s)

/-- XOR (R152). -/
def execXor (b a : Operand) (s : State) : Host.Outcome State Fault Refusal :=
  .next (runAlu (.xor b a) b a aluXor s)

/-- SHR (R153). -/
def execShr (b a : Operand) (s : State) : Host.Outcome State Fault Refusal :=
  .next (runAlu (.shr b a) b a aluShr s)

/-- ASR (R154). -/
def execAsr (b a : Operand) (s : State) : Host.Outcome State Fault Refusal :=
  .next (runAlu (.asr b a) b a (aluAsr s.config.asrExSigned) s)

/-- SHL (R155). -/
def execShl (b a : Operand) (s : State) : Host.Outcome State Fault Refusal :=
  .next (runAlu (.shl b a) b a aluShl s)

end Sys2Proof.Machine
end

