-- ==== Sys2Proof/Machine/SetArithmetic.lean ====
section
/-! DEFINITION. SET, integer arithmetic, ADX/SBX, STI/STD (41_set_arithmetic.md). -/

namespace Sys2Proof.Machine

/-- SET (R121). -/
def execSet (b a : Operand) (s : State) : Host.Outcome State Fault Refusal :=
  .next (runAlu (.set b a) b a aluSet s)

/-- ADD (R122). -/
def execAdd (b a : Operand) (s : State) : Host.Outcome State Fault Refusal :=
  .next (runAlu (.add b a) b a aluAdd s)

/-- SUB (R123). -/
def execSub (b a : Operand) (s : State) : Host.Outcome State Fault Refusal :=
  .next (runAlu (.sub b a) b a aluSub s)

/-- MUL (R124). -/
def execMul (b a : Operand) (s : State) : Host.Outcome State Fault Refusal :=
  .next (runAlu (.mul b a) b a aluMul s)

/-- MLI (R125). -/
def execMli (b a : Operand) (s : State) : Host.Outcome State Fault Refusal :=
  .next (runAlu (.mli b a) b a aluMli s)

/-- DIV (R126). -/
def execDiv (b a : Operand) (s : State) : Host.Outcome State Fault Refusal :=
  .next (runAlu (.div b a) b a aluDiv s)

/-- DVI (R127). -/
def execDvi (b a : Operand) (s : State) : Host.Outcome State Fault Refusal :=
  .next (runAlu (.dvi b a) b a aluDvi s)

/-- MOD (R128). -/
def execMod (b a : Operand) (s : State) : Host.Outcome State Fault Refusal :=
  .next (runAlu (.mod b a) b a aluMod s)

/-- MDI (R129). -/
def execMdi (b a : Operand) (s : State) : Host.Outcome State Fault Refusal :=
  .next (runAlu (.mdi b a) b a aluMdi s)

/-- ADX (R130): the `EX` term is the value before the instruction. -/
def execAdx (b a : Operand) (s : State) : Host.Outcome State Fault Refusal :=
  .next (runAlu (.adx b a) b a (fun vb va => aluAdx vb va s.ex) s)

/-- SBX (R131): the `EX` term is the value before the instruction. -/
def execSbx (b a : Operand) (s : State) : Host.Outcome State Fault Refusal :=
  .next (runAlu (.sbx b a) b a (fun vb va => aluSbx s.config.sbxExSigned vb va s.ex) s)

/-- `I` and `J` each changed by `d`, after the store of STI or STD (R132, R133). -/
def stepIJ (d : Word) (s : State) : State :=
  setReg .J (readReg s.regs .J + d) (setReg .I (readReg s.regs .I + d) s)

/-- STI (R132): the store comes first, then `I` and `J` go up by one. -/
def execSti (b a : Operand) (s : State) : Host.Outcome State Fault Refusal :=
  .next (stepIJ 1 (runAlu (.sti b a) b a aluSet s))

/-- STD (R133): the store comes first, then `I` and `J` go down by one, that is up by 0xFFFF modulo
2^16. -/
def execStd (b a : Operand) (s : State) : Host.Outcome State Fault Refusal :=
  .next (stepIJ 0xFFFF (runAlu (.std b a) b a aluSet s))

end Sys2Proof.Machine
end

