-- ==== Sys2Proof/Machine/System.lean ====
section
/-! DEFINITION. The interrupt and hardware instructions (45_interrupt_hardware.md). -/

namespace Sys2Proof.Machine

/-- INT (R200): the message is enqueued whatever `iq` and `IA` are; a full queue halts the core (R233). -/
def execInt (a : Operand) (s : State) : Host.Outcome State Fault Refusal :=
  .next (runExtended (.int a) a (fun _ va t => enqueue va t) s)

/-- IAG (R201). -/
def execIag (a : Operand) (s : State) : Host.Outcome State Fault Refusal :=
  .next (runExtended (.iag a) a (fun la _ t => store la t.ia t) s)

/-- IAS (R202). -/
def execIas (a : Operand) (s : State) : Host.Outcome State Fault Refusal :=
  .next (runExtended (.ias a) a (fun _ va t => setIa va t) s)

/-- RFI (R203): the operand is resolved and ignored (R111). -/
def execRfi (a : Operand) (s : State) : Host.Outcome State Fault Refusal :=
  .next (runExtended (.rfi a) a (fun _ _ t => returnFromInterrupt t) s)

/-- IAQ (R204). -/
def execIaq (a : Operand) (s : State) : Host.Outcome State Fault Refusal :=
  .next (runExtended (.iaq a) a (fun _ va t => setIq (va ≠ 0) t) s)

/-- HWN (R205). -/
def execHwn (a : Operand) (s : State) : Host.Outcome State Fault Refusal :=
  .next (runExtended (.hwn a) a (fun la _ t => store la (BitVec.ofNat 16 (deviceCount t)) t) s)

/-- The identity `HWQ` reports for an index: zeros where no device is attached (R206). -/
def deviceAt (i : Nat) (s : State) : Device :=
  match s.config.devices[i]? with
  | some d => d
  | none => { id := 0, version := 0, manufacturer := 0 }

/-- The five registers `HWQ` writes, low halves before high halves (R206). -/
def writeIdentity (d : Device) (s : State) : State :=
  setReg .Y (d.manufacturer.extractLsb' 16 16) <|
  setReg .X (d.manufacturer.extractLsb' 0 16) <|
  setReg .C d.version <|
  setReg .B (d.id.extractLsb' 16 16) <|
  setReg .A (d.id.extractLsb' 0 16) s

/-- HWQ (R206). -/
def execHwq (a : Operand) (s : State) : Host.Outcome State Fault Refusal :=
  .next (runExtended (.hwq a) a (fun _ va t => writeIdentity (deviceAt va.toNat t) t) s)

/-- HWI (R207): the device's own operation, or nothing where no device is attached. -/
def execHwi (a : Operand) (s : State) : Host.Outcome State Fault Refusal :=
  .next (runExtended (.hwi a) a
    (fun _ va t => if va.toNat < deviceCount t then callDevice va.toNat t else t) s)

end Sys2Proof.Machine
end

