-- ==== Sys2Proof/Machine/Undefined.lean ====
section
/-! DEFINITION. Executing an undefined instruction word (R232, R235). -/

namespace Sys2Proof.Machine

/-- `UndefinedOpcode(w)` under `UNDEF_MODE = fault` (R232): the word is fetched, no operand is resolved, the core
halts with the word and its address. -/
def undefinedFault (s : State) : State :=
  let (w, t) := fetch s
  raiseFault (.undefinedOpcode w (t.pc - 1)) t

/-- `UndefinedOpcode(w)` under `UNDEF_MODE = nop` (R235): the words are fetched and the operands resolved as for a
defined instruction of the same format; nothing else happens. -/
def undefinedNop (s : State) : State :=
  let w := wordAhead 0 s
  let t := advance (footprint w) s
  if fieldO w = 0 then (sampleA (operandA w (wordAhead 1 s)) t).st
  else (sample (operandB w (wordAhead 1 s) (wordAhead 2 s)) (operandA w (wordAhead 1 s)) t).st

/-- `UndefinedOpcode(w)` by the machine's `UNDEF_MODE`. -/
def undefinedOpcode (s : State) : State :=
  match s.config.undefMode with
  | .fault => undefinedFault s
  | .nop => undefinedNop s

end Sys2Proof.Machine
end

