-- ==== Sys2Proof/Machine/Step.lean ====
section
/-! DEFINITION. One step (R80): one instruction followed by one interrupt check. -/

namespace Sys2Proof.Machine

/-- `Step()` of R80.  A halted core does nothing (R234); an undefined word is handled by the machine's `UNDEF_MODE`;
a defined instruction runs once its words are counted, and the interrupt check ends the step. -/
def step (s : State) : Host.Outcome State Fault Refusal :=
  match s.halted with
  | some _ => .next s
  | none =>
    match decodeAtPc s with
    | .ok (i, n) => atBoundary (exec i (advance n s))
    | .error _ => atBoundary (.next (undefinedOpcode s))

/-- The state with an instruction, given as spec/opcode_table.json numbers its bits, in the three cells at `pc`, where
the next step fetches; the words above `nbits` are zero.  A halted core is set running, since it would not fetch. -/
def State.withFetchWord (s : State) (nbits w : Nat) : State :=
  { memWrite (s.pc + 2) (tableWord nbits w 2)
      (memWrite (s.pc + 1) (tableWord nbits w 1) (memWrite s.pc (tableWord nbits w 0) s)) with halted := none }

end Sys2Proof.Machine
end

