-- ==== Sys2Proof/Certificates/Slice0/Pseudocode.lean ====
section
/-! DEFINITION. The spec's own `Step()`, `Resolve` and operation tables (R80, R91, R120..R208), line by line, for the
statement that the model's step is the same function.  The model decodes a whole instruction first; here every word is
fetched where the spec fetches it, and operands are codes. -/

namespace Sys2Proof.Pseudocode

open Sys2Proof.Machine

/-- The general register of index 0..7 (R20). -/
def gpr : Nat → Reg
  | 0 => .A | 1 => .B | 2 => .C | 3 => .X | 4 => .Y | 5 => .Z | 6 => .I | _ => .J

/-- `Resolve(code, role)` (R91). -/
def resolveCode (code : BitVec 6) (role : Role) (s : State) : Loc × State :=
  let c := code.toNat
  if c < 0x08 then (.reg (gpr c), s)
  else if c < 0x10 then (.mem (readReg s.regs (gpr (c - 0x08))), s)
  else if c < 0x18 then
    let (n, t) := fetch s
    (.mem (n + readReg t.regs (gpr (c - 0x10))), t)
  else if c = 0x18 then
    match role with
    | .a => (.mem s.sp, setSp (s.sp + 1) s)
    | .b => (.mem (s.sp - 1), setSp (s.sp - 1) s)
  else if c = 0x19 then (.mem s.sp, s)
  else if c = 0x1A then
    let (n, t) := fetch s
    (.mem (t.sp + n), t)
  else if c = 0x1B then (.spReg, s)
  else if c = 0x1C then (.pcReg, s)
  else if c = 0x1D then (.exReg, s)
  else if c = 0x1E then
    let (n, t) := fetch s
    (.mem n, t)
  else if c = 0x1F then
    let (n, t) := fetch s
    (.lit n, t)
  else (.lit (u16 ((c : Int) - 0x21)), s)

/-- `ExtraCycles(o)` of R277 for the basic format. -/
def extraPrimary (o : Nat) : Nat :=
  if o ∈ [0x04, 0x05, 0x0D, 0x0E, 0x0F, 0x1A, 0x1B] then 1
  else if o ∈ [0x06, 0x07, 0x08, 0x09] then 2
  else if o ∈ [0x10, 0x11, 0x12, 0x13, 0x14, 0x15, 0x16, 0x17] then 1
  else if o ∈ [0x1E, 0x1F] then 1
  else 0

/-- `ExtraCycles(e)` of R277 for the extended format. -/
def extraExtended (c : Config) (e : Nat) : Nat :=
  if e ∈ [0x01, 0x0B] then 2
  else if e ∈ [0x08, 0x11, 0x12] then 3
  else if e = 0x0C then 1
  else if e = 0x09 then c.extraIag
  else if e = 0x0A then c.extraIas
  else c.extraHwn

/-- `if not cond: Skip()` (R170). -/
def unlessSkip (cond : Prop) [Decidable cond] (s : State) : Host.Outcome State Fault Refusal :=
  if cond then .next s
  else
    match skip s with
    | some t => .next t
    | none => .fault .skipNeverEnds

/-- `Execute_primary` (R121..R133, R150..R155, R171..R178). -/
def executePrimary (o : Nat) (lb : Loc) (va vb : Word) (s : State) : Host.Outcome State Fault Refusal :=
  let carry (r : Int) : Word := if r > 0xFFFF then 1 else 0
  let borrow (r : Int) : Word := if r < 0 then 0xFFFF else 0
  let put (ex result : Int) : Host.Outcome State Fault Refusal := .next (store lb (u16 result) (setEx (u16 ex) s))
  let only (result : Word) : Host.Outcome State Fault Refusal := .next (store lb result s)
  if o = 0x01 then only va
  else if o = 0x02 then .next (store lb (u16 (uint vb + uint va)) (setEx (carry (uint vb + uint va)) s))
  else if o = 0x03 then .next (store lb (u16 (uint vb - uint va)) (setEx (borrow (uint vb - uint va)) s))
  else if o = 0x04 then put (shiftRight (uint vb * uint va) 16) (uint vb * uint va)
  else if o = 0x05 then put (shiftRight (s16 vb * s16 va) 16) (s16 vb * s16 va)
  else if o = 0x06 then
    if va = 0 then put 0 0 else put (shiftLeft (uint vb) 16 / uint va) (uint vb / uint va)
  else if o = 0x07 then
    if va = 0 then put 0 0 else put (truncDiv (shiftLeft (s16 vb) 16) (s16 va)) (truncDiv (s16 vb) (s16 va))
  else if o = 0x08 then
    if va = 0 then only 0 else only (u16 (uint vb % uint va))
  else if o = 0x09 then
    if va = 0 then only 0 else only (u16 (truncRem (s16 vb) (s16 va)))
  else if o = 0x0A then only (vb &&& va)
  else if o = 0x0B then only (vb ||| va)
  else if o = 0x0C then only (vb ^^^ va)
  else if o = 0x0D then put (shiftRight (shiftLeft (uint vb) 16) va.toNat) (shiftRight (uint vb) va.toNat)
  else if o = 0x0E then
    put (shiftRight (shiftLeft (if s.config.asrExSigned then s16 vb else uint vb) 16) va.toNat)
      (shiftRight (s16 vb) va.toNat)
  else if o = 0x0F then put (shiftRight (shiftLeft (uint vb) va.toNat) 16) (shiftLeft (uint vb) va.toNat)
  else if o = 0x10 then unlessSkip (vb &&& va ≠ 0) s
  else if o = 0x11 then unlessSkip (vb &&& va = 0) s
  else if o = 0x12 then unlessSkip (vb = va) s
  else if o = 0x13 then unlessSkip (vb ≠ va) s
  else if o = 0x14 then unlessSkip (uint vb > uint va) s
  else if o = 0x15 then unlessSkip (s16 vb > s16 va) s
  else if o = 0x16 then unlessSkip (uint vb < uint va) s
  else if o = 0x17 then unlessSkip (s16 vb < s16 va) s
  else if o = 0x1A then
    let r := uint vb + uint va + uint s.ex
    .next (store lb (u16 r) (setEx (carry r) s))
  else if o = 0x1B then
    let r := uint vb - uint va + (if s.config.sbxExSigned then s16 s.ex else uint s.ex)
    .next (store lb (u16 r) (setEx (borrow r) s))
  else if o = 0x1E then
    let t := store lb va s
    let t := setReg .I (readReg t.regs .I + 1) t
    .next (setReg .J (readReg t.regs .J + 1) t)
  else
    let t := store lb va s
    let t := setReg .I (readReg t.regs .I - 1) t
    .next (setReg .J (readReg t.regs .J - 1) t)

/-- `Execute_extended` (R190, R200..R207). -/
def executeExtended (e : Nat) (la : Loc) (va : Word) (s : State) : Host.Outcome State Fault Refusal :=
  if e = 0x01 then .next (setPc va (push s.pc s))
  else if e = 0x08 then .next (enqueue va s)
  else if e = 0x09 then .next (store la s.ia s)
  else if e = 0x0A then .next (setIa va s)
  else if e = 0x0B then
    let (x0, t) := pop (setIq false s)
    let (p, u) := pop (setReg .A x0 t)
    .next (setPc p u)
  else if e = 0x0C then .next (setIq (va != 0) s)
  else if e = 0x10 then .next (store la (BitVec.ofNat 16 s.config.devices.length) s)
  else if e = 0x11 then
    let d := s.config.devices.getD va.toNat { id := 0, version := 0, manufacturer := 0 }
    .next { s with regs := { s.regs with
      a := d.id.extractLsb' 0 16, b := d.id.extractLsb' 16 16, c := d.version,
      x := d.manufacturer.extractLsb' 0 16, y := d.manufacturer.extractLsb' 16 16 } }
  else if va.toNat < s.config.devices.length then .next (callDevice va.toNat s)
  else .next s

/-- `Step()` (R80), with `UndefinedOpcode` of R232 and R235. -/
def step (s : State) : Host.Outcome State Fault Refusal :=
  if s.halted ≠ none then .next s
  else
    let (w, s) := fetch s
    let o := w.extractLsb' 0 5
    let bf := w.extractLsb' 5 5
    let af := w.extractLsb' 10 6
    if o ≠ 0 then
      if o.toNat ∈ [0x18, 0x19, 0x1C, 0x1D] then
        match s.config.undefMode with
        | .fault => .next (raiseFault (.undefinedOpcode w (s.pc - 1)) s)
        | .nop => atBoundary (.next (resolveCode (bf.setWidth 6) .b (resolveCode af .a s).2).2)
      else
        let (la, s) := resolveCode af .a s
        let (lb, s) := resolveCode (bf.setWidth 6) .b s
        let va := load la s
        let vb := load lb s
        atBoundary (executePrimary o.toNat lb va vb (charge (extraPrimary o.toNat) s))
    else
      if bf.toNat ∉ [0x01, 0x08, 0x09, 0x0A, 0x0B, 0x0C, 0x10, 0x11, 0x12] then
        match s.config.undefMode with
        | .fault => .next (raiseFault (.undefinedOpcode w (s.pc - 1)) s)
        | .nop => atBoundary (.next (resolveCode af .a s).2)
      else
        let (la, s) := resolveCode af .a s
        let va := load la s
        atBoundary (executeExtended bf.toNat la va (charge (extraExtended s.config bf.toNat) s))

end Sys2Proof.Pseudocode
end

