-- ==== Sys2Proof/Machine/Interfaces.lean ====
section
/-! DEFINITION. What the outside world can do to the core, as whole operations between steps (80_interfaces.md). -/

namespace Sys2Proof.Machine

/-- Words put into consecutive cells from cell `k` upward, up to cell 65535 and no further. -/
def writeSpan : Nat → List Word → Memory → Memory
  | _, [], m => m
  | k, v :: vs, m => if k < 65536 then writeSpan (k + 1) vs (writeWord m (BitVec.ofNat 16 k) v) else m

/-- The host's `Write(addr, data)` (R302): truncated at the end of memory, no wrap-around, no error. -/
def hostWrite (addr : Word) (data : List Word) (s : State) : State :=
  { s with mem := writeSpan addr.toNat data s.mem }

/-- The host's `Read(addr, n)` (R303): truncated at the end of memory. -/
def hostRead (addr : Word) (n : Nat) (s : State) : List Word :=
  (List.range (min n (65536 - addr.toNat))).map fun k => memRead (addr + BitVec.ofNat 16 k) s

/-- `RegisterSnapshot()` (R34, R304): 14 words. -/
def snapshot (s : State) : List Word :=
  [s.regs.a, s.regs.b, s.regs.c, s.regs.x, s.regs.y, s.regs.z, s.regs.i, s.regs.j,
    s.pc, s.sp, s.ex, s.ia, s.tick, if s.iq then 1 else 0]

/-- The number of a fault cause (R231), a label only (D20). -/
def haltCode : Halt → Nat
  | .undefinedOpcode _ _ => 1
  | .interruptQueueOverflow _ => 2

/-- A device's interrupt request with message `m`, between two steps and at any time (R310): one `Enqueue`, on a halted
core too.  There it can raise no second cause, since `halted` never changes again (R31, log entry 8). -/
def deviceRequest (m : Word) (s : State) : State :=
  match s.halted with
  | none => enqueue m s
  | some h => { enqueue m s with halted := some h }

/-- What the host does before the first step (R270, R272): the core is reset, its parameters set and its devices
attached, the program written from address 0.  Devices can be attached here only (R307). -/
def boot (c : Config) (program : List Word) : Host.Outcome State Fault Refusal :=
  if 65535 < c.devices.length then .refused .tooManyDevices
  else .next (hostWrite 0 program { State.reset with config := c })

/-- The elements a run is made of (R311): whole steps and whole outside operations. -/
inductive Action
  | step
  | write (addr : Word) (data : List Word)
  | read (addr : Word) (n : Nat)
  | snapshot
  | request (m : Word)
deriving DecidableEq, Repr

/-- The effect of one element of a run; reads change no state (R303, R304). -/
def act (x : Action) (s : State) : Host.Outcome State Fault Refusal :=
  match x with
  | .step => step s
  | .write addr data => .next (hostWrite addr data s)
  | .read _ _ => .next s
  | .snapshot => .next s
  | .request m => .next (deviceRequest m s)

/-- A run as a sequence of whole actions, in any interleaving (R60, R311). -/
def runActions : List Action → State → Host.Outcome State Fault Refusal
  | [], s => .next s
  | x :: xs, s =>
    match act x s with
    | .next t => runActions xs t
    | .fault f => .fault f
    | .refused r => .refused r

/-- How `Run()` stands after some polls of the halt flag (R306).  The spec leaves it to the model what ends a run
successfully (R306, D28); this model defines no successful end, DESIGN CHOICE (log entry 19): a run ends by a fatal
fault, which is no success, or by the host's halt flag, and a program that has finished is still running. -/
inductive RunEnd
  /-- It ended: the core is halted. -/
  | fatalFault (h : Halt)
  /-- It ended: the halt flag was found set; the core can be run on. -/
  | haltFlag
  /-- It goes on: the polls are used up. -/
  | running
deriving DecidableEq, Repr

/-- `Run()` (R306): repeated steps, ended by a fatal fault or by the halt flag, polled before every step; the list
holds what each poll finds. -/
def run : List Bool → State → Host.Outcome (RunEnd × State) Fault Refusal
  | polls, s =>
    match s.halted with
    | some h => .next (.fatalFault h, s)
    | none =>
      match polls with
      | [] => .next (.running, s)
      | true :: _ => .next (.haltFlag, s)
      | false :: polls' =>
        match step s with
        | .next t => run polls' t
        | .fault f => .fault f
        | .refused r => .refused r
termination_by structural polls => polls

end Sys2Proof.Machine
end

