-- ==== Sys2Proof/Safety.lean ====
section
/-! DEFINITION. The terms the statements use: running, the invariant, what an instruction may leave changed, and the
chain of instructions a skip passes. -/

namespace Sys2Proof.Machine

/-- The core runs: it has met no fatal fault (R31). -/
abbrev State.Running (s : State) : Prop := s.halted = none

/-- The invariant of R35 and R29: the memory is in its canonical form, the queue holds at most 256 messages, and the
devices can be counted by one word (R4). -/
abbrev State.Inv (s : State) : Prop :=
  Memory.wf s.mem = true ∧ s.queue.length ≤ 256 ∧ deviceCount s ≤ 65535

/-! ### Frames -/

/-- What resolving an operand adds to `SP`: 1 for `POP`, -1 for `PUSH`, else 0 (R91, R95, R96). -/
def spDelta (role : Role) (op : Operand) : Word :=
  match op, role with
  | .pushPop, .a => 1
  | .pushPop, .b => -1
  | _, _ => 0

/-- No general register is changed but the one the location names, if it names one. -/
abbrev RegsFrame (l : Loc) (s t : State) : Prop := ∀ r, l ≠ .reg r → readReg t.regs r = readReg s.regs r

/-- No cell of memory is changed but the one the location names, if it names one. -/
abbrev MemFrame (l : Loc) (s t : State) : Prop :=
  (∀ a, l = .mem a → ∀ x, x ≠ a → memRead x t = memRead x s) ∧
  ((∀ a, l ≠ .mem a) → ∀ x, memRead x t = memRead x s)

/-- The interrupt state, the halted indication, the parameters and the count of device calls are unchanged. -/
abbrev ControlFrame (s t : State) : Prop :=
  t.ia = s.ia ∧ t.iq = s.iq ∧ t.queue = s.queue ∧ t.halted = s.halted ∧ t.config = s.config ∧ t.devCalls = s.devCalls

/-! ### Families -/

/-- The arithmetic and logic instructions that write one result to `b` (R120). -/
def aluInstrs (b a : Operand) : List Instr :=
  [.set b a, .add b a, .sub b a, .mul b a, .mli b a, .div b a, .dvi b a, .mod b a, .mdi b a, .and b a, .bor b a,
    .xor b a, .shr b a, .asr b a, .shl b a, .adx b a, .sbx b a]

/-- The eight conditional instructions, each with its condition on the sampled values (R171..R178). -/
def conditionals (b a : Operand) (vb va : Word) : List (Instr × Bool) :=
  [(.ifb b a, vb &&& va != 0), (.ifc b a, vb &&& va == 0), (.ife b a, vb == va), (.ifn b a, vb != va),
    (.ifg b a, va.ult vb), (.ifa b a, va.slt vb), (.ifl b a, vb.ult va), (.ifu b a, vb.slt va)]

/-! ### Runs -/

/-- The messages the devices request in a run, in the order of the requests (R310). -/
def requested : List Action → List Word
  | [] => []
  | .request m :: xs => m :: requested xs
  | .step :: xs | .write _ _ :: xs | .read _ _ :: xs | .snapshot :: xs => requested xs

/-! ### Skipping -/

/-- The address reached from `pc` by passing `k` instructions, by their footprints (R72, R179). -/
def passed (m : Memory) : Nat → Word → Word
  | 0, pc => pc
  | k + 1, pc => passed m k (pc + BitVec.ofNat 16 (footprint (readWord m pc)))

/-- At `pc` stand `k` conditional instructions and then one that is not conditional (R180). -/
abbrev ChainAt (m : Memory) (pc : Word) (k : Nat) : Prop :=
  (∀ j < k, isConditional (readWord m (passed m j pc)) = true) ∧
  isConditional (readWord m (passed m k pc)) = false

/-- From `pc` on there are only conditional instructions, round and round memory (R180, U8). -/
abbrev EndlessAt (m : Memory) (pc : Word) : Prop := ∀ k, isConditional (readWord m (passed m k pc)) = true

/-- The words of a list, as the decoder sees them from its first three. -/
def decodeWords (ws : List Word) : Except Undefined (Instr × Nat) :=
  decode (ws.getD 0 0) (ws.getD 1 0) (ws.getD 2 0)

end Sys2Proof.Machine
end

