-- ==== Sys2Proof/Certificates/Slice0/Obligations.lean ====
section
/-! DEFINITION. The statements for the provers.  `exec` is given the state whose `pc` and `tick` already count the
instruction's own words; `step` adds the fetch before it and the interrupt check after it.  In every statement about an
instruction, `sample b a s` (or `sampleA a s`) is what the operand resolver gives: the locations `la`, `lb`, the sampled
values `va`, `vb`, and the state `st` after both resolutions.  That the values are read after both resolutions is the
spec's own decision D4, and that `EX` is written before the result is its decision D5. -/

open Sys2Proof Sys2Proof.Machine

/-! ### Encoding -/

/-- R70..R74: every well-formed instruction is read back from its words, whatever words follow them. -/
def Obligations.DecodeInvertsEncode : Prop :=
  ∀ (i : Instr) (x y : Word), i.wellFormed = true →
    decodeWords (encode i ++ [x, y]) = .ok (i, (encode i).length)

/-- R70..R74: the words an instruction was decoded from are the words that encode it, so that no two words mean the
same instruction and no bit of a word is dropped. -/
def Obligations.EncodeInvertsDecode : Prop :=
  ∀ (w n₁ n₂ : Word) (i : Instr) (n : Nat), decode w n₁ n₂ = .ok (i, n) →
    i.wellFormed = true ∧ encode i = [w, n₁, n₂].take n

/-- R81: every word is exactly one of a basic instruction with its `o`, `a`, `b`, an extended instruction with its
`e`, `a`, or undefined. -/
def Obligations.DecoderClasses : Prop :=
  ∀ w n₁ n₂ : Word,
    (fieldO w ∈ [0x01, 0x02, 0x03, 0x04, 0x05, 0x06, 0x07, 0x08, 0x09, 0x0A, 0x0B, 0x0C, 0x0D, 0x0E, 0x0F, 0x10, 0x11,
        0x12, 0x13, 0x14, 0x15, 0x16, 0x17, 0x1A, 0x1B, 0x1E, (0x1F : BitVec 5)] →
      ∃ i n, decode w n₁ n₂ = .ok (i, n) ∧
        instrShape i = .basic (fieldO w) (operandB w n₁ n₂) (operandA w n₁)) ∧
    (fieldO w = 0 → fieldB w ∈ [0x01, 0x08, 0x09, 0x0A, 0x0B, 0x0C, 0x10, 0x11, (0x12 : BitVec 5)] →
      ∃ i n, decode w n₁ n₂ = .ok (i, n) ∧ instrShape i = .extended (fieldB w) (operandA w n₁)) ∧
    (fieldO w ∈ [0x18, 0x19, 0x1C, (0x1D : BitVec 5)] ∨
        fieldO w = 0 ∧ fieldB w ∉ [0x01, 0x08, 0x09, 0x0A, 0x0B, 0x0C, 0x10, 0x11, (0x12 : BitVec 5)] →
      ∃ u, decode w n₁ n₂ = .error u)

/-- R70, R71, R74, R82: words written out from the encoding `aaaaaabbbbbooooo` are the instructions they stand for,
one or more of each family. -/
def Obligations.WordsFromTheSpecDecode : Prop :=
  decode 0x7C01 0x0030 0 = .ok (.set (.reg .A) (.lit 0x0030), 2) ∧
  decode 0x88C3 0 0 = .ok (.sub (.reg .I) (.small 2), 1) ∧
  decode 0x946F 0 0 = .ok (.shl (.reg .X) (.small 5), 1) ∧
  decode 0x84D3 0 0 = .ok (.ifn (.reg .I) (.small 1), 1) ∧
  decode 0x9020 0 0 = .ok (.jsr (.small 4), 1) ∧
  decode 0x7D00 0x1234 0 = .ok (.int (.lit 0x1234), 2) ∧
  decode 0x5ADE 0x1000 0x2000 = .ok (.sti (.idx .I 0x2000) (.idx .I 0x1000), 3) ∧
  decode 0x0220 0 0 = .ok (.hwq (.reg .A), 1) ∧
  decode 0x6301 0 0 = .ok (.set .pushPop .pushPop, 1) ∧
  decode 0x0000 0 0 = .error (.extendedOpcode 0) ∧
  decode 0xFFFD 0 0 = .error (.primaryOpcode 0x1D)

/-! ### The step -/

/-- R80: when the words at `pc` decode to an instruction of `n` words, the step is that instruction, run with `pc` and
`tick` past its words, and then the interrupt check. -/
def Obligations.StepRunsDecodedInstruction : Prop :=
  ∀ (s : State) (i : Instr) (n : Nat), s.Running →
    decode (memRead s.pc s) (memRead (s.pc + 1) s) (memRead (s.pc + 2) s) = .ok (i, n) →
    step s = atBoundary (exec i { s with pc := s.pc + BitVec.ofNat 16 n, tick := s.tick + BitVec.ofNat 16 n })

/-- R80, R91, R107: the model's step, which decodes a whole instruction first, is the spec's own `Step()`, which
fetches each word where an operand needs it. The order of sampling, the order of the writes and the point of the
undefined-opcode fault are the spec's decisions D4, D5, D6, D7. -/
def Obligations.StepIsThePseudocode : Prop :=
  ∀ s : State, step s = Pseudocode.step s

/-- R35, R29: every step keeps the invariant: memory in canonical form, at most 256 messages queued, the devices
countable. That memory is a list of cells in a canonical form is the model's choice (log entry 1). -/
def Obligations.StepKeepsInvariant : Prop :=
  ∀ s t : State, s.Inv → step s = .next t → t.Inv

/-- R35, R29, R311: a run of whole steps and whole outside operations, in any interleaving, keeps the invariant:
memory in canonical form, at most 256 messages queued, the devices countable. That memory is a list of cells in a
canonical form is the model's choice (log entry 1). -/
def Obligations.RunsKeepInvariant : Prop :=
  ∀ (xs : List Action) (s t : State), s.Inv → runActions xs s = .next t → t.Inv

/-- The state after reset runs and meets the invariant: memory in canonical form, at most 256 messages queued, at most
65535 devices. That memory is a list of cells in a canonical form is the model's choice (log entry 1); that the core is
not halted and the queue within its bound at reset rests on the spec's decision D2 (log entry 4), and the number of
devices on the model's choice that none is attached at reset (log entry 14). -/
def Obligations.ResetMeetsInvariant : Prop := State.reset.Inv ∧ State.reset.Running

/-- R36, R37: `SP` and `PC` are 0 after reset. The zeros of the other registers, `iq` false, the empty queue and the
zero memory are the spec's own decisions D2 and D3 (log entries 4 and 5). -/
def Obligations.ResetValues : Prop :=
  State.reset.sp = 0 ∧ State.reset.pc = 0 ∧ (∀ r, readReg State.reset.regs r = 0) ∧ State.reset.ex = 0 ∧
  State.reset.ia = 0 ∧ State.reset.tick = 0 ∧ State.reset.iq = false ∧ State.reset.queue = [] ∧
  State.reset.halted = none ∧ (∀ a, memRead a State.reset = 0) ∧ State.reset.config.devices = []

/-- R33: no step changes the device table or any other parameter. That the parameters stand in the state is the
model's choice (log entry 2). -/
def Obligations.ParametersNeverChange : Prop :=
  ∀ s t : State, step s = .next t → t.config = s.config

/-- R25: `IA` is changed only by `IAS`, or by a device called by `HWI` (R309). -/
def Obligations.HandlerAddressWriters : Prop :=
  ∀ (s t : State), step s = .next t → t.ia ≠ s.ia →
    ∃ a n, decodeAtPc s = .ok (.ias a, n) ∨ decodeAtPc s = .ok (.hwi a, n)

/-- R27, R249: no instruction reads `tick`: a step from a state whose `tick` is `k` higher is the same step, with
`tick` `k` higher. -/
def Obligations.TickIsNeverRead : Prop :=
  ∀ (k : Nat) (s : State), step (charge k s) =
    match step s with
    | .next t => .next (charge k t)
    | .fault f => .fault f
    | .refused r => .refused r

/-- R231, R236: a running core halts only on an undefined word, under `UNDEF_MODE = fault`, or on an `INT` that finds
256 messages queued. -/
def Obligations.OnlyTwoFatalFaults : Prop :=
  ∀ s t : State, s.Running → step s = .next t → ¬ t.Running →
    ((∃ u, decodeAtPc s = .error u) ∧ s.config.undefMode = .fault ∧
      t.halted = some (.undefinedOpcode (memRead s.pc s) s.pc)) ∨
    (∃ a n m, decodeAtPc s = .ok (.int a, n) ∧ 256 ≤ s.queue.length ∧ t.halted = some (.interruptQueueOverflow m))

/-- R80, R180: a step always has a next state, but where a failed conditional instruction is followed by conditional
instructions all round memory. -/
def Obligations.StepStopsOnlyInEndlessSkip : Prop :=
  ∀ s : State, (∀ r, step s ≠ .refused r) ∧
    (∀ f, step s = .fault f → f = .skipNeverEnds ∧ s.Running ∧ isConditional (memRead s.pc s) = true ∧
      EndlessAt s.mem (s.pc + BitVec.ofNat 16 (footprint (memRead s.pc s))))

/-- R31, R234, R310: a halted core stays halted with the same cause, through steps and outside operations of every
kind; a step changes nothing, and a run changes memory and the queue only: the queue takes the messages that devices
request, in their order, as long as it has room. That steps do nothing is the spec's decision D26; that a request to a
halted core still joins the queue, and does nothing when the queue is full, is deduced from R310 and R31 (log entry
8). -/
def Obligations.HaltedForGood : Prop :=
  (∀ (s : State) (h : Halt), s.halted = some h → step s = .next s) ∧
  (∀ (xs : List Action) (s t : State) (h : Halt), s.halted = some h → runActions xs s = .next t →
    t.halted = some h ∧
    t = { s with queue := s.queue ++ (requested xs).take (256 - s.queue.length), mem := t.mem })

/-- R232: an undefined word, under the normative policy, halts the core with the word and its address; `pc` and `tick`
have gone up by 1, no operand has been resolved and no interrupt check follows. The register values left behind are
the spec's decision D6. -/
def Obligations.UndefinedWordHalts : Prop :=
  ∀ (s : State) (u : Undefined), s.Running → s.config.undefMode = .fault → decodeAtPc s = .error u →
    step s = .next { s with pc := s.pc + 1, tick := s.tick + 1,
                            halted := some (.undefinedOpcode (memRead s.pc s) s.pc) }

/-- R235: an undefined word under the optional policy takes its words and moves `SP` as its operands do, writes
nothing, and goes on to the interrupt check. What the mode does is the spec's decision D7. -/
def Obligations.UndefinedWordAsNop : Prop :=
  ∀ (s : State) (u : Undefined), s.Running → s.config.undefMode = .nop → decodeAtPc s = .error u →
    ∃ t, step s = .next (interruptCheck t) ∧
      t.pc = s.pc + BitVec.ofNat 16 (footprint (memRead s.pc s)) ∧
      t.tick = s.tick + BitVec.ofNat 16 (footprint (memRead s.pc s)) ∧
      t.sp = s.sp + (if fieldA (memRead s.pc s) = 0x18 then 1 else 0)
        - (if fieldO (memRead s.pc s) ≠ 0 ∧ fieldB (memRead s.pc s) = 0x18 then 1 else 0) ∧
      t.regs = s.regs ∧ t.ex = s.ex ∧ t.mem = s.mem ∧ ControlFrame s t

/-! ### Operands -/

/-- R91..R104: the location of every operand form, in both roles, and the change of `SP` it makes. That the forms with
a next word (R94, R98, R102, R103) change nothing here, though their `Fetch()` moves `pc` and `tick`, is the model's
choice to make that `Fetch()` part of decoding: the word stands in the operand, and `pc` and `tick` of the state given
already count it (log entry 6). -/
def Obligations.OperandForms : Prop :=
  ∀ (role : Role) (r : Reg) (n : Word) (k : BitVec 5) (s : State),
    resolve role (.reg r) s = (.reg r, s) ∧
    resolve role (.ind r) s = (.mem (readReg s.regs r), s) ∧
    resolve role (.idx r n) s = (.mem (n + readReg s.regs r), s) ∧
    resolve .a .pushPop s = (.mem s.sp, { s with sp := s.sp + 1 }) ∧
    resolve .b .pushPop s = (.mem (s.sp - 1), { s with sp := s.sp - 1 }) ∧
    resolve role .peek s = (.mem s.sp, s) ∧
    resolve role (.pick n) s = (.mem (s.sp + n), s) ∧
    resolve role .sp s = (.spReg, s) ∧
    resolve role .pc s = (.pcReg, s) ∧
    resolve role .ex s = (.exReg, s) ∧
    resolve role (.mem n) s = (.mem n, s) ∧
    resolve role (.lit n) s = (.lit n, s) ∧
    resolve role (.small k) s = (.lit (u16 (((0x20 + k.toNat : Nat) : Int) - 0x21)), s)

/-- R91, R107, R111: operand `a` is resolved first and `b` in the state after it; what is left of resolution once the
next words are fetched moves `SP` and changes nothing else, and each value is read from its location in the state after
both. In R91 resolving also moves `pc` and `tick` by its `Fetch()`; that this `Fetch()` is part of decoding, so that
`pc` and `tick` already count it, is the model's choice (log entry 6). The sampling point is the spec's decision D4, and
that RFI's operand is resolved its decision D23. -/
def Obligations.ResolutionMovesOnlySp : Prop :=
  ∀ (b a : Operand) (s : State),
    (sample b a s).la = (resolve .a a s).1 ∧ (sample b a s).lb = (resolve .b b (resolve .a a s).2).1 ∧
    (sampleA a s).la = (resolve .a a s).1 ∧
    (sample b a s).st = { s with sp := s.sp + spDelta .a a + spDelta .b b } ∧
    (sampleA a s).st = { s with sp := s.sp + spDelta .a a } ∧
    (sample b a s).va = load (sample b a s).la (sample b a s).st ∧
    (sample b a s).vb = load (sample b a s).lb (sample b a s).st ∧
    (sampleA a s).va = load (sampleA a s).la (sampleA a s).st

/-- R105, R106: what is stored to a location is loaded from it, a literal excepted, and every other location keeps its
value. -/
def Obligations.StoreThenLoad : Prop :=
  ∀ (l q : Loc) (v : Word) (s : State),
    ((∀ w, l ≠ .lit w) → load l (store l v s) = v) ∧ (q ≠ l → load q (store l v s) = load q s)

/-- R106: a write to a literal holder changes nothing at all; the `EX` of the instruction is still written. -/
def Obligations.LiteralWriteDropped : Prop :=
  ∀ (n v : Word) (o : AluOut) (s : State), store (.lit n) v s = s ∧ writeBack (.lit n) o s = setExIf o.ex s

/-- R110, R112: a word pushed and then popped: `SP` is as before and the destination holds the word, for every source
that is no stack form of its own and every destination but `PUSH` and `SP`; the second instruction starts with its own
words counted, however many they are (log entry 6). Sampling is the spec's decision D4. -/
def Obligations.PushThenPop : Prop :=
  ∀ (x y : Operand) (n : Nat) (s t u : State), x ≠ .pushPop → y ≠ .pushPop → y ≠ .sp →
    exec (.set .pushPop x) s = .next t → exec (.set y .pushPop) (advance n t) = .next u →
    t.sp = s.sp - 1 ∧ memRead t.sp t = (sample .pushPop x s).va ∧ u.sp = s.sp ∧
    ((∀ w, (sample y .pushPop (advance n t)).lb ≠ .lit w) →
      load (sample y .pushPop (advance n t)).lb u = (sample .pushPop x s).va)

/-- R110: `SET PUSH, POP`, `SET PEEK, POP`, `SET PUSH, PEEK`, `SET SP, POP` and `SET PUSH, SP`, with `s.sp` the value
of `SP` before. The last rests on the spec's decision D4. -/
def Obligations.StackInteractions : Prop :=
  ∀ s : State,
    (∃ t, exec (.set .pushPop .pushPop) s = .next t ∧ t.sp = s.sp ∧ ∀ x, memRead x t = memRead x s) ∧
    (∃ t, exec (.set .peek .pushPop) s = .next t ∧ t.sp = s.sp + 1 ∧ memRead t.sp t = memRead s.sp s) ∧
    (∃ t, exec (.set .pushPop .peek) s = .next t ∧ t.sp = s.sp - 1 ∧ memRead t.sp t = memRead s.sp s) ∧
    (∃ t, exec (.set .sp .pushPop) s = .next t ∧ t.sp = memRead s.sp s) ∧
    (∃ t, exec (.set .pushPop .sp) s = .next t ∧ t.sp = s.sp - 1 ∧ memRead t.sp t = s.sp - 1)

/-! ### SET, arithmetic, logic and shifts: result, EX, cycles -/

/-- R121, R132, R133: SET stores `va`; STI and STD store it and then move `I` and `J` by one, modulo 2^16. Sampling is
the spec's decision D4. -/
def Obligations.SetStiStdResults : Prop :=
  ∀ (b a : Operand) (s : State),
    let p := sample b a s
    let bump (d : Word) (t : State) : State :=
      { t with regs := { t.regs with i := t.regs.i + d, j := t.regs.j + d } }
    exec (.set b a) s = .next (store p.lb p.va (charge 0 p.st)) ∧
    exec (.sti b a) s = .next (bump 1 (store p.lb p.va (charge 1 p.st))) ∧
    exec (.std b a) s = .next (bump 0xFFFF (store p.lb p.va (charge 1 p.st)))

/-- R122, R123: ADD and SUB, with the unsigned carry and borrow in `EX`. Sampling and the order of the writes are the
spec's decisions D4 and D5. -/
def Obligations.AddSubResults : Prop :=
  ∀ (b a : Operand) (s : State),
    let p := sample b a s
    exec (.add b a) s = .next (store p.lb (p.vb + p.va)
      (setEx (if BitVec.uaddOverflow p.vb p.va then 1 else 0) (charge 0 p.st))) ∧
    exec (.sub b a) s = .next (store p.lb (p.vb - p.va)
      (setEx (if p.vb.ult p.va then 0xFFFF else 0) (charge 0 p.st)))

/-- R124, R125: `EX` and the result are the high and low half of the 32-bit product, unsigned for MUL, two's
complement for MLI. Sampling and the order of the writes are the spec's decisions D4 and D5. -/
def Obligations.ProductHalves : Prop :=
  ∀ (b a : Operand) (s : State),
    let p := sample b a s
    (∃ hi lo : Word, hi ++ lo = p.vb.setWidth 32 * p.va.setWidth 32 ∧
      exec (.mul b a) s = .next (store p.lb lo (setEx hi (charge 1 p.st)))) ∧
    (∃ hi lo : Word, hi ++ lo = p.vb.signExtend 32 * p.va.signExtend 32 ∧
      exec (.mli b a) s = .next (store p.lb lo (setEx hi (charge 1 p.st))))

/-- R126, R128: DIV and MOD, unsigned; a zero divisor gives 0, and MOD never writes `EX`. Sampling and the order of
the writes are the spec's decisions D4 and D5. -/
def Obligations.UnsignedDivision : Prop :=
  ∀ (b a : Operand) (s : State),
    let p := sample b a s
    exec (.div b a) s = .next (store p.lb (if p.va = 0 then 0 else p.vb / p.va)
      (setEx (if p.va = 0 then 0 else ((p.vb ++ 0#16) / p.va.setWidth 32).setWidth 16) (charge 2 p.st))) ∧
    exec (.mod b a) s = .next (store p.lb (if p.va = 0 then 0 else p.vb % p.va) (charge 2 p.st))

/-- R127, R129: DVI and MDI, two's complement, rounded toward zero; a zero divisor gives 0, and MDI never writes `EX`.
The `EX` of DVI is the spec's decision D11. Sampling and the order of the writes are the spec's decisions D4 and D5.
-/
def Obligations.SignedDivision : Prop :=
  ∀ (b a : Operand) (s : State),
    let p := sample b a s
    exec (.dvi b a) s = .next (store p.lb (if p.va = 0 then 0 else p.vb.sdiv p.va)
      (setEx (if p.va = 0 then 0 else ((p.vb ++ 0#16).sdiv (p.va.signExtend 32)).setWidth 16) (charge 2 p.st))) ∧
    exec (.mdi b a) s = .next (store p.lb (if p.va = 0 then 0 else p.vb.srem p.va) (charge 2 p.st))

/-- R129: for a divisor other than 0, `b = a · (b DVI a) + (b MDI a)` in exact integers, the remainder is smaller than
the divisor and has the sign of the dividend or is zero. -/
def Obligations.DivisionIdentity : Prop :=
  ∀ vb va : Word, va ≠ 0 →
    (aluDvi vb va).result = u16 (truncDiv (s16 vb) (s16 va)) ∧
    s16 vb = s16 va * truncDiv (s16 vb) (s16 va) + s16 (aluMdi vb va).result ∧
    (s16 (aluMdi vb va).result).natAbs < (s16 va).natAbs ∧
    (0 ≤ s16 vb → 0 ≤ s16 (aluMdi vb va).result) ∧ (s16 vb ≤ 0 → s16 (aluMdi vb va).result ≤ 0)

/-- R130, R131: ADX and SBX add the old `EX`; `EX` becomes 1 on carry, 0xFFFF on borrow, else 0. The reading of the
`EX` term of SBX is the spec's decision D8, and both settings of `SBX_EX_SIGNED` are stated. Sampling and the order of
the writes are the spec's decisions D4 and D5. -/
def Obligations.AdxSbxResults : Prop :=
  ∀ (b a : Operand) (s : State),
    let p := sample b a s
    exec (.adx b a) s = .next (store p.lb (p.vb + p.va + s.ex)
      (setEx (if 65536 ≤ p.vb.toNat + p.va.toNat + s.ex.toNat then 1 else 0) (charge 1 p.st))) ∧
    (s.config.sbxExSigned = false → exec (.sbx b a) s = .next (store p.lb (p.vb - p.va + s.ex)
      (setEx (if p.vb.toNat + s.ex.toNat < p.va.toNat then 0xFFFF else 0) (charge 1 p.st)))) ∧
    (s.config.sbxExSigned = true → exec (.sbx b a) s = .next (store p.lb (p.vb - p.va + s.ex)
      (setEx (if (p.vb.toNat : Int) + s.ex.toInt < p.va.toNat then 0xFFFF else 0) (charge 1 p.st))))

/-- R123, conflict C5: `ADD` and then `SUB` of the same two registers gives the register back, and `EX` is 0xFFFF
exactly when the `ADD` carried, else 0; the `SUB` starts with its own words counted, however many they are
(log entry 6). -/
def Obligations.AddThenSub : Prop :=
  ∀ (r q : Reg) (n : Nat) (s t u : State), r ≠ q →
    exec (.add (.reg r) (.reg q)) s = .next t → exec (.sub (.reg r) (.reg q)) (advance n t) = .next u →
    readReg u.regs r = readReg s.regs r ∧ u.ex = (if t.ex = 1 then 0xFFFF else 0)

/-- R150, R151, R152: AND, BOR, XOR write the result and not `EX`. Sampling is the spec's decision D4. -/
def Obligations.LogicResults : Prop :=
  ∀ (b a : Operand) (s : State),
    let p := sample b a s
    exec (.and b a) s = .next (store p.lb (p.vb &&& p.va) (charge 0 p.st)) ∧
    exec (.bor b a) s = .next (store p.lb (p.vb ||| p.va) (charge 0 p.st)) ∧
    exec (.xor b a) s = .next (store p.lb (p.vb ^^^ p.va) (charge 0 p.st))

/-- R153..R156: for every count, SHR and ASR leave the result and `EX` as the high and low half of `b` shifted right
in 32 bits, logically and arithmetically, and SHL leaves `EX` and the result as the halves of `b` shifted left. Counts
of 16 and more are the spec's decision D10, the `EX` of ASR its decision D9; both settings of `ASR_EX_SIGNED` are
stated. Sampling and the order of the writes are the spec's decisions D4 and D5. -/
def Obligations.ShiftLaws : Prop :=
  ∀ (b a : Operand) (s : State),
    let p := sample b a s
    let n := p.va.toNat
    let done (hi lo : Word) : Host.Outcome State Fault Refusal := .next (store p.lb hi (setEx lo (charge 1 p.st)))
    (∃ r e : Word, r ++ e = (p.vb ++ 0#16) >>> n ∧ exec (.shr b a) s = done r e) ∧
    (∃ r e : Word, r ++ e = (p.vb ++ 0#16).sshiftRight n ∧
      (s.config.asrExSigned = true → exec (.asr b a) s = done r e) ∧
      (s.config.asrExSigned = false →
        exec (.asr b a) s = done r (((p.vb ++ 0#16) >>> n).setWidth 16))) ∧
    (∃ r e : Word, e ++ r = (0#16 ++ p.vb) <<< n ∧ exec (.shl b a) s = done r e)

/-- R120, R108: what an arithmetic or logic instruction leaves unchanged: every register but the destination, every
cell but the destination, `SP` but for the stack forms, `PC` unless it is the destination, and all interrupt state. -/
def Obligations.AluFrame : Prop :=
  ∀ (b a : Operand) (s t : State) (i : Instr), i ∈ aluInstrs b a → exec i s = .next t →
    RegsFrame (sample b a s).lb s t ∧ MemFrame (sample b a s).lb s t ∧ ControlFrame s t ∧
    ((sample b a s).lb ≠ .spReg → t.sp = s.sp + spDelta .a a + spDelta .b b) ∧
    ((sample b a s).lb ≠ .pcReg → t.pc = s.pc)

/-- R132, R133: STI and STD leave the same unchanged, but that they also move `I` and `J`. -/
def Obligations.StiStdFrame : Prop :=
  ∀ (b a : Operand) (s t : State) (i : Instr), i ∈ [Instr.sti b a, .std b a] → exec i s = .next t →
    (∀ r, r ≠ .I → r ≠ .J → (sample b a s).lb ≠ .reg r → readReg t.regs r = readReg s.regs r) ∧
    MemFrame (sample b a s).lb s t ∧ ControlFrame s t ∧
    ((sample b a s).lb ≠ .spReg → t.sp = s.sp + spDelta .a a + spDelta .b b) ∧
    ((sample b a s).lb ≠ .pcReg → t.pc = s.pc) ∧ ((sample b a s).lb ≠ .exReg → t.ex = s.ex)

/-- R24: the instructions that never write `EX` unless it is their destination. -/
def Obligations.ExUntouched : Prop :=
  ∀ (b a : Operand) (s t : State) (i : Instr), exec i s = .next t →
    (i ∈ [Instr.set b a, .mod b a, .mdi b a, .and b a, .bor b a, .xor b a, .sti b a, .std b a] →
      (sample b a s).lb ≠ .exReg → t.ex = s.ex) ∧
    (i ∈ [Instr.ifb b a, .ifc b a, .ife b a, .ifn b a, .ifg b a, .ifa b a, .ifl b a, .ifu b a] → t.ex = s.ex) ∧
    (i ∈ [Instr.jsr a, .int a, .ias a, .rfi a, .iaq a, .hwq a] → t.ex = s.ex) ∧
    (i ∈ [Instr.iag a, .hwn a] → (sampleA a s).la ≠ .exReg → t.ex = s.ex)

/-- R277, R276: every executed instruction costs its extra cycles besides its words, a failed conditional one its own
and one more for each instruction of the chain it skips (R278). The costs of IAG, IAS and HWN are parameters (the spec's
decision D14). R281, R278: a step of a running core costs between 1
and 3 + 3 ticks and one more for each of the `k` instructions it skips, and `tick` is not what it was unless 65530
instructions or more are skipped; only a conditional instruction skips, and `k` is the length of the chain that follows
it. That each of the three parameters is at most 4 is deduced from R281 (log entry 18); the cost per skipped instruction
is the spec's decision D12, that interrupt delivery costs nothing its decision D15, and the sampling of the conditions'
values its decision D4. -/
def Obligations.ExtraCycleCosts : Prop :=
  (∀ (b a : Operand) (s t : State) (i : Instr), exec i s = .next t →
    (i ∈ [Instr.set b a, .add b a, .sub b a, .and b a, .bor b a, .xor b a] → t.tick = s.tick) ∧
    (i ∈ [Instr.mul b a, .mli b a, .shr b a, .shl b a, .asr b a, .adx b a, .sbx b a, .sti b a, .std b a, .iaq a] →
      t.tick = s.tick + 1) ∧
    (i ∈ [Instr.div b a, .dvi b a, .mod b a, .mdi b a, .jsr a, .rfi a] → t.tick = s.tick + 2) ∧
    (i ∈ [Instr.int a, .hwq a, .hwi a] → t.tick = s.tick + 3) ∧
    (i = .iag a → t.tick = s.tick + BitVec.ofNat 16 s.config.extraIag) ∧
    (i = .ias a → t.tick = s.tick + BitVec.ofNat 16 s.config.extraIas) ∧
    (i = .hwn a → t.tick = s.tick + BitVec.ofNat 16 s.config.extraHwn) ∧
    (∀ c ∈ conditionals b a (sample b a s).vb (sample b a s).va, i = c.1 →
      (c.2 = true → t.tick = s.tick + 1) ∧
      (∀ k, c.2 = false → ChainAt s.mem s.pc k → t.tick = s.tick + BitVec.ofNat 16 (1 + (k + 1))))) ∧
  (∀ s t : State, s.Running → step s = .next t → ∃ n k : Nat,
    1 ≤ n ∧ n ≤ 3 + 3 ∧ t.tick = s.tick + BitVec.ofNat 16 (n + k) ∧ (k < 65530 → t.tick ≠ s.tick) ∧
    (k ≠ 0 → isConditional (memRead s.pc s) = true ∧
      ChainAt s.mem (s.pc + BitVec.ofNat 16 (footprint (memRead s.pc s))) (k - 1)))

/-- R191, conflict C6: `pc` after an instruction is the address after its words, unless it stores to `PC` or is a
conditional instruction, JSR, RFI or HWI. -/
def Obligations.ProgramCounterWriters : Prop :=
  ∀ (s t : State) (i : Instr), exec i s = .next t → t.pc ≠ s.pc →
    (∃ b a, i ∈ aluInstrs b a ++ [Instr.sti b a, .std b a] ∧ b = .pc) ∨
    (∃ b a, i ∈ [Instr.ifb b a, .ifc b a, .ife b a, .ifn b a, .ifg b a, .ifa b a, .ifl b a, .ifu b a]) ∨
    i ∈ [Instr.iag .pc, .hwn .pc] ∨ (∃ a, i ∈ [Instr.jsr a, .rfi a, .hwi a])

/-! ### Conditional instructions and skipping -/

/-- R170..R178: a conditional instruction whose condition holds costs one extra cycle and does nothing more. Sampling
is the spec's decision D4. -/
def Obligations.ConditionHolds : Prop :=
  ∀ (b a : Operand) (s : State) (c : Instr × Bool), c ∈ conditionals b a (sample b a s).vb (sample b a s).va →
    c.2 = true → exec c.1 s = .next (charge 1 (sample b a s).st)

/-- R170, R179, R180: a conditional instruction whose condition fails passes the `k` conditional instructions that
follow it and one instruction more, each by its footprint and for one cycle; nothing of them is executed. The cost per
skipped instruction is the spec's decision D12, the footprint of extended and undefined words its decision D13.
Sampling is the spec's decision D4. -/
def Obligations.ConditionFailsSkipsChain : Prop :=
  ∀ (b a : Operand) (s : State) (k : Nat) (c : Instr × Bool),
    c ∈ conditionals b a (sample b a s).vb (sample b a s).va → c.2 = false → k < 65536 → ChainAt s.mem s.pc k →
    exec c.1 s = .next { charge (k + 2) (sample b a s).st with pc := passed s.mem (k + 1) s.pc }

/-- R180, U8: a conditional instruction has no next state exactly where its condition fails and only conditional
instructions follow, round and round memory; the bound of 65536 skipped instructions in the model loses nothing.
Sampling is the spec's decision D4. -/
def Obligations.EndlessSkipExactly : Prop :=
  ∀ (b a : Operand) (s : State) (c : Instr × Bool), c ∈ conditionals b a (sample b a s).vb (sample b a s).va →
    ((∃ f, exec c.1 s = .fault f) ↔ c.2 = false ∧ EndlessAt s.mem s.pc)

/-- R170, R181: a conditional instruction, and the skip that is part of it, changes only `PC`, `tick` and, by its own
operands, `SP`. -/
def Obligations.ConditionalFrame : Prop :=
  ∀ (b a : Operand) (s t : State) (i : Instr),
    i ∈ [Instr.ifb b a, .ifc b a, .ife b a, .ifn b a, .ifg b a, .ifa b a, .ifl b a, .ifu b a] →
    exec i s = .next t →
    t.regs = s.regs ∧ (∀ x, memRead x t = memRead x s) ∧ t.ex = s.ex ∧
    t.sp = s.sp + spDelta .a a + spDelta .b b ∧ ControlFrame s t

/-! ### JSR, interrupt and hardware instructions -/

/-- R190: JSR pushes the address after it and continues at `va`, which was sampled before the push; every general
register, `EX`, the interrupt state and every cell but the pushed one are unchanged. Sampling is the spec's decision
D4. -/
def Obligations.JsrResult : Prop :=
  ∀ (a : Operand) (s : State), ∃ t, exec (.jsr a) s = .next t ∧
    t.pc = (sampleA a s).va ∧ t.sp = s.sp + spDelta .a a - 1 ∧ memRead t.sp t = s.pc ∧ t.tick = s.tick + 2 ∧
    t.regs = s.regs ∧ t.ex = s.ex ∧ ControlFrame s t ∧
    ∀ x, x ≠ (sampleA a s).st.sp - 1 → memRead x t = memRead x s

/-- R200, R233, R238: INT appends its message whatever `iq` and `IA` are; with 256 messages queued it halts the core
and the queue is unchanged. The state a full queue leaves is the spec's decision D21. Sampling is the spec's decision
D4. -/
def Obligations.IntResult : Prop :=
  ∀ (a : Operand) (s : State),
    let p := sampleA a s
    (s.queue.length < 256 → exec (.int a) s = .next { charge 3 p.st with queue := s.queue ++ [p.va] }) ∧
    (256 ≤ s.queue.length →
      exec (.int a) s = .next { charge 3 p.st with halted := some (.interruptQueueOverflow p.va) })

/-- R201, R202, R204, R205: IAG stores `IA`, IAS writes it, IAQ sets the queueing flag from `va`, HWN stores the
number of devices. Sampling is the spec's decision D4. -/
def Obligations.InterruptRegisterResults : Prop :=
  ∀ (a : Operand) (s : State),
    let p := sampleA a s
    exec (.iag a) s = .next (store p.la s.ia (charge s.config.extraIag p.st)) ∧
    exec (.ias a) s = .next { charge s.config.extraIas p.st with ia := p.va } ∧
    exec (.iaq a) s = .next { charge 1 p.st with iq := !(p.va == 0) } ∧
    exec (.hwn a) s = .next (store p.la (BitVec.ofNat 16 s.config.devices.length) (charge s.config.extraHwn p.st))

/-- R203, R111, R246: RFI clears the queueing flag and pops `A` and then `PC`, after its own operand was resolved (the
spec's decision D23), from wherever `SP` points (its decision D17); everything else is unchanged. -/
def Obligations.RfiResult : Prop :=
  ∀ (a : Operand) (s : State), ∃ t, exec (.rfi a) s = .next t ∧
    t.iq = false ∧ t.regs = { s.regs with a := memRead (s.sp + spDelta .a a) s } ∧
    t.pc = memRead (s.sp + spDelta .a a + 1) s ∧ t.sp = s.sp + spDelta .a a + 2 ∧ t.tick = s.tick + 2 ∧
    (∀ x, memRead x t = memRead x s) ∧ t.ex = s.ex ∧ t.ia = s.ia ∧ t.queue = s.queue ∧ t.halted = s.halted ∧
    t.config = s.config ∧ t.devCalls = s.devCalls

/-- R200, R202, R204: INT, IAS and IAQ leave the registers, memory, `PC` and `EX`, and each leaves the interrupt state
but the one part it writes. -/
def Obligations.InterruptControlFrame : Prop :=
  ∀ (a : Operand) (s t : State) (i : Instr), i ∈ [Instr.int a, .ias a, .iaq a] → exec i s = .next t →
    t.regs = s.regs ∧ (∀ x, memRead x t = memRead x s) ∧ t.pc = s.pc ∧ t.ex = s.ex ∧
    t.sp = s.sp + spDelta .a a ∧ t.config = s.config ∧ t.devCalls = s.devCalls ∧
    (i ≠ .ias a → t.ia = s.ia) ∧ (i ≠ .iaq a → t.iq = s.iq) ∧
    (i ≠ .int a → t.queue = s.queue ∧ t.halted = s.halted)

/-- R201, R205: IAG and HWN leave everything but their destination. -/
def Obligations.StoringExtendedFrame : Prop :=
  ∀ (a : Operand) (s t : State) (i : Instr), i ∈ [Instr.iag a, .hwn a] → exec i s = .next t →
    RegsFrame (sampleA a s).la s t ∧ MemFrame (sampleA a s).la s t ∧ ControlFrame s t ∧
    ((sampleA a s).la ≠ .spReg → t.sp = s.sp + spDelta .a a) ∧
    ((sampleA a s).la ≠ .pcReg → t.pc = s.pc) ∧ ((sampleA a s).la ≠ .exReg → t.ex = s.ex)

/-- R206: HWQ reads the identity of the device its operand names, low halves in the lower registers; an index with no
device gives zeros. `Z`, `I`, `J`, `EX`, `PC`, memory and the interrupt state are unchanged. The indexing by order of
attachment is the spec's decision D19. Sampling is the spec's decision D4. -/
def Obligations.HwqResult : Prop :=
  ∀ (a : Operand) (s : State), ∃ t, exec (.hwq a) s = .next t ∧ t.tick = s.tick + 3 ∧
    (∀ d, s.config.devices[(sampleA a s).va.toNat]? = some d →
      t.regs.b ++ t.regs.a = d.id ∧ t.regs.c = d.version ∧ t.regs.y ++ t.regs.x = d.manufacturer) ∧
    (s.config.devices.length ≤ (sampleA a s).va.toNat →
      t.regs.a = 0 ∧ t.regs.b = 0 ∧ t.regs.c = 0 ∧ t.regs.x = 0 ∧ t.regs.y = 0) ∧
    (∀ r ∈ [Reg.Z, .I, .J], readReg t.regs r = readReg s.regs r) ∧ (∀ x, memRead x t = memRead x s) ∧
    t.pc = s.pc ∧ t.ex = s.ex ∧ t.sp = s.sp + spDelta .a a ∧ ControlFrame s t

/-- R207, R309: HWI on an index with no device does nothing but its operand and cycles; on a device it takes the
device's effect, whatever it is (a free value, log entry 3), and leaves `iq`, the queue, `halted` and the parameters.
Sampling is the spec's decision D4. -/
def Obligations.HwiResult : Prop :=
  ∀ (a : Operand) (s : State),
    let p := sampleA a s
    (s.config.devices.length ≤ p.va.toNat → exec (.hwi a) s = .next (charge 3 p.st)) ∧
    (p.va.toNat < s.config.devices.length → ∃ t e, exec (.hwi a) s = .next t ∧
      e = Config.devInterrupt p.va.toNat s.devCalls (coreView p.st) ∧
      t.regs = e.regs ∧ t.pc = e.pc ∧ t.sp = e.sp ∧ t.ex = e.ex ∧ t.ia = e.ia ∧ t.mem = writeAll e.writes s.mem ∧
      t.devCalls = s.devCalls + 1)

/-- R207, R309: HWI never touches `iq`, the queue, `halted` and the parameters, and changes no cell its device does
not write. The limits on a device are the spec's decision D22. -/
def Obligations.HwiFrame : Prop :=
  ∀ (a : Operand) (s t : State), exec (.hwi a) s = .next t →
    t.iq = s.iq ∧ t.queue = s.queue ∧ t.halted = s.halted ∧ t.config = s.config ∧
    (s.config.devices.length ≤ (sampleA a s).va.toNat → t.regs = s.regs ∧ t.pc = s.pc ∧ t.ex = s.ex ∧ t.ia = s.ia ∧
      t.sp = s.sp + spDelta .a a ∧ t.devCalls = s.devCalls ∧ ∀ x, memRead x t = memRead x s) ∧
    ∀ x, memRead x t = memRead x s ∨
      ∃ w ∈ (Config.devInterrupt (sampleA a s).va.toNat s.devCalls (coreView (sampleA a s).st)).writes, w.1 = x

/-! ### Interrupts -/

/-- R238: `Enqueue` appends the message, or halts the core with the message when 256 are already queued; it looks
neither at `iq` nor at `IA`. -/
def Obligations.EnqueueRule : Prop :=
  ∀ (m : Word) (s : State),
    (256 ≤ s.queue.length → enqueue m s = { s with halted := some (.interruptQueueOverflow m) }) ∧
    (s.queue.length < 256 → enqueue m s = { s with queue := s.queue ++ [m] })

/-- R239, R240, R243: the interrupt check does nothing while `iq` is set or the queue is empty; else it takes the
head: with `IA` not 0 it delivers it, with `PC` and then `A` on the stack, with `IA` 0 it discards it. -/
def Obligations.InterruptCheckRule : Prop :=
  ∀ (s : State) (m : Word) (q : List Word),
    (s.iq = true → interruptCheck s = s) ∧ (s.queue = [] → interruptCheck s = s) ∧
    (s.iq = false → s.queue = m :: q → s.ia = 0 → interruptCheck s = { s with queue := q }) ∧
    (s.iq = false → s.queue = m :: q → s.ia ≠ 0 →
      let t := interruptCheck s
      t.iq = true ∧ t.queue = q ∧ t.pc = s.ia ∧ t.regs = { s.regs with a := m } ∧ t.sp = s.sp - 2 ∧
      memRead t.sp t = s.regs.a ∧ memRead (t.sp + 1) t = s.pc ∧
      (∀ x, x ≠ t.sp → x ≠ t.sp + 1 → memRead x t = memRead x s) ∧
      t.ex = s.ex ∧ t.ia = s.ia ∧ t.tick = s.tick ∧ t.halted = s.halted ∧ t.config = s.config ∧
      t.devCalls = s.devCalls)

/-- R243, R244: `RFI` pops `A` and `PC` and clears the queueing flag; where the two cells that interrupt entry pushed
hold what it pushed, whatever else the handler has stored, and `RFI`'s operand leaves `SP` where entry left it, that
restores `A`, `PC` and `SP` as they were before the entry, and it restores nothing else. That RFI's operand is resolved
before the pops, so that a `POP` there moves `SP` by one first, is the spec's decision D23 (R111, log entry 10). -/
def Obligations.EntryThenReturn : Prop :=
  ∀ (s t u : State) (a : Operand) (m : Word) (q : List Word),
    s.iq = false → s.queue = m :: q → s.ia ≠ 0 →
    t.sp + spDelta .a a = (interruptCheck s).sp →
    memRead (interruptCheck s).sp t = memRead (interruptCheck s).sp (interruptCheck s) →
    memRead ((interruptCheck s).sp + 1) t = memRead ((interruptCheck s).sp + 1) (interruptCheck s) →
    exec (.rfi a) t = .next u →
    u.regs = { t.regs with a := s.regs.a } ∧ u.pc = s.pc ∧ u.sp = s.sp ∧ u.iq = false ∧
    (∀ x, memRead x u = memRead x t) ∧ u.ex = t.ex ∧ u.ia = t.ia ∧ u.queue = t.queue ∧ u.halted = t.halted

/-- R237, R238, R242, R310: requests that fit join the queue in their order, behind what is there, and change nothing
else; one that finds 256 messages queued halts a running core. That a halted core queues requests too, and keeps its
first cause when its queue is full, is deduced from R310 and R31 (log entry 8). -/
def Obligations.RequestsJoinInOrder : Prop :=
  (∀ (ms : List Word) (s : State), s.queue.length + ms.length ≤ 256 →
    runActions (ms.map Action.request) s = .next { s with queue := s.queue ++ ms }) ∧
  (∀ (m : Word) (s : State), 256 ≤ s.queue.length →
    runActions [.request m] s = .next { s with halted := s.halted.or (some (.interruptQueueOverflow m)) })

/-! ### Memory and host -/

/-- R51, R57: a cell reads as the word last written to it, a write changes no other cell and nothing else of the
state. -/
def Obligations.MemoryPrimitives : Prop :=
  ∀ (a x v : Word) (s : State),
    memRead a (memWrite a v s) = v ∧ (x ≠ a → memRead x (memWrite a v s) = memRead x s) ∧
    { memWrite a v s with mem := s.mem } = s

/-- Two memories in canonical form that read alike at every address are the same data. The form is the model's choice
(log entry 1). -/
def Obligations.CanonicalMemory : Prop :=
  ∀ m m' : Memory, Memory.wf m = true → Memory.wf m' = true → (∀ a, readWord m a = readWord m' a) → m = m'

/-- R302, R303: a host write reaches `min(len, 65536 - addr)` cells from `addr` upward and no other, never wrapping
round, and changes nothing but memory; a host read returns as many words as there are. -/
def Obligations.HostWriteRead : Prop :=
  ∀ (addr x : Word) (data : List Word) (n : Nat) (s : State),
    (∀ k (h : k < data.length), addr.toNat + k < 65536 → x.toNat = addr.toNat + k →
      memRead x (hostWrite addr data s) = data[k]) ∧
    (x.toNat < addr.toNat ∨ addr.toNat + data.length ≤ x.toNat → memRead x (hostWrite addr data s) = memRead x s) ∧
    { hostWrite addr data s with mem := s.mem } = s ∧
    (hostRead addr n s).length = min n (65536 - addr.toNat) ∧
    (∀ k (h : k < (hostRead addr n s).length), (hostRead addr n s)[k] = memRead (addr + BitVec.ofNat 16 k) s)

/-- R34, R304: the register snapshot, in its order, with `iq` as the last word. -/
def Obligations.SnapshotOrder : Prop :=
  ∀ s : State, (snapshot s).length = 14 ∧
    (snapshot s).take 8 = [Reg.A, .B, .C, .X, .Y, .Z, .I, .J].map (readReg s.regs) ∧
    (snapshot s).drop 8 = [s.pc, s.sp, s.ex, s.ia, s.tick, (BitVec.ofBool s.iq).setWidth 16]
end

