-- ==== Sys2Proof/Laws/Decode.lean ====
section
/-! SUPPORT. The fields of an instruction word, and what the decoder and the encoder do with an operand. -/

namespace Sys2Proof

@[simp] theorem fieldO_packWord (a : BitVec 6) (b o : BitVec 5) : fieldO (packWord a b o) = o := by
  apply BitVec.eq_of_getElem_eq
  intro i hi
  simp only [fieldO, packWord, BitVec.getElem_extractLsb', BitVec.getLsbD_append]
  rw [if_pos (by omega), BitVec.getLsbD_eq_getElem (by omega)]
  congr 1
  omega

@[simp] theorem fieldB_packWord (a : BitVec 6) (b o : BitVec 5) : fieldB (packWord a b o) = b := by
  apply BitVec.eq_of_getElem_eq
  intro i hi
  simp only [fieldB, packWord, BitVec.getElem_extractLsb', BitVec.getLsbD_append]
  rw [if_neg (by omega), if_pos (by omega), BitVec.getLsbD_eq_getElem (by omega)]
  congr 1
  omega

@[simp] theorem fieldA_packWord (a : BitVec 6) (b o : BitVec 5) : fieldA (packWord a b o) = a := by
  apply BitVec.eq_of_getElem_eq
  intro i hi
  simp only [fieldA, packWord, BitVec.getElem_extractLsb', BitVec.getLsbD_append]
  rw [if_neg (by omega), if_neg (by omega), BitVec.getLsbD_eq_getElem (by omega)]
  congr 1
  omega

/-- A word is its three fields (R70). -/
theorem packWord_fields (w : Word) : packWord (fieldA w) (fieldB w) (fieldO w) = w := by
  apply BitVec.eq_of_getLsbD_eq
  intro i hi
  simp only [fieldA, fieldB, fieldO, packWord, BitVec.getLsbD_append, BitVec.getLsbD_extractLsb']
  split
  · next h => simp [h]
  · split
    · next h1 h2 => rw [decide_eq_true h2, Bool.true_and]; congr 1; omega
    · next h1 h2 =>
      rw [decide_eq_true (show i - 5 - 5 < 6 by omega), Bool.true_and]
      congr 1
      omega

theorem operandCode_small_toNat (k : BitVec 5) : (operandCode (.small k)).toNat = 0x20 + k.toNat := by
  have hk := k.isLt
  have h32 : BitVec.toNat (0x20 : BitVec 6) = 32 := rfl
  simp only [operandCode, BitVec.toNat_add, BitVec.toNat_setWidth, h32]
  omega

theorem operandCode_small_low (k : BitVec 5) : (operandCode (.small k)).extractLsb' 0 5 = k := by
  apply BitVec.eq_of_toNat_eq
  have hk := k.isLt
  rw [BitVec.extractLsb'_toNat, operandCode_small_toNat]
  simp only [Nat.shiftRight_zero]
  omega

/-- The operand of an operand's code is that operand, with its own next word. -/
theorem operandOf_operandCode (op : Operand) (n : Word) (h : ∀ m ∈ operandNext op, m = n) :
    operandOf (operandCode op) n = op := by
  cases op with
  | reg r => cases r <;> simp [operandOf, operandCode, regIndex, regOfIndex]
  | ind r => cases r <;> simp [operandOf, operandCode, regIndex, regOfIndex]
  | idx r m =>
    simp only [operandNext, List.mem_singleton, forall_eq] at h
    subst h
    cases r <;> simp [operandOf, operandCode, regIndex, regOfIndex]
  | small k =>
    have h1 := operandCode_small_toNat k
    have h2 := operandCode_small_low k
    simp only [operandOf, h1, h2]
    simp (disch := omega) only [if_neg]
  | pick m | mem m | lit m =>
    simp only [operandNext, List.mem_singleton, forall_eq] at h
    subst h
    rfl
  | _ => rfl

/-- An operand's code needs a next word exactly when the operand brings one (R72). -/
theorem needsWord_operandCode (op : Operand) : needsWord (operandCode op) = !(operandNext op).isEmpty := by
  cases op with
  | reg r | ind r | idx r m => cases r <;> rfl
  | small k =>
    have h := operandCode_small_toNat k
    simp only [needsWord, h, operandNext, List.isEmpty_nil, Bool.not_true]
    simp
    omega
  | _ => rfl

/-- An operand that fits the 5-bit field keeps its code through it (R73). -/
theorem operandCode_fits (op : Operand) (h : op.fitsB = true) :
    ((operandCode op).setWidth 5).setWidth 6 = operandCode op := by
  cases op with
  | reg r | ind r | idx r m => cases r <;> simp only [operandCode, regIndex] <;> decide
  | small k => simp [Operand.fitsB] at h
  | _ => simp only [operandCode]; decide

/-- The code of the operand of a code is that code. -/
theorem operandCode_operandOf (c : BitVec 6) (n : Word) : operandCode (operandOf c n) = c := by
  have h : ∀ k : Fin 64, operandCode (operandOf (BitVec.ofFin k) 0) = BitVec.ofFin k := by decide
  have hc : operandCode (operandOf c n) = operandCode (operandOf c 0) := by
    simp only [operandOf, apply_ite operandCode]
    simp only [operandCode]
  rw [hc]
  exact h c.toFin

/-- What holds of both branches of a choice holds of the choice. -/
theorem ite_cases {α : Type} {motive : α → Prop} {c : Prop} [Decidable c] {x y : α}
    (hx : c → motive x) (hy : ¬ c → motive y) : motive (if c then x else y) := by
  split
  · next h => exact hx h
  · next h => exact hy h

/-- A code below 0x20 gives an operand that fits the 5-bit field (R73). -/
theorem operandOf_fitsB (c : BitVec 5) (n : Word) : (operandOf (c.setWidth 6) n).fitsB = true := by
  have hc := c.isLt
  have h : (c.setWidth 6).toNat = c.toNat := by simp; omega
  simp only [operandOf, h]
  repeat' refine ite_cases (motive := fun o => Operand.fitsB o = true) (fun _ => ?_) (fun _ => ?_)
  all_goals first | rfl | omega

/-- The next words of the operand of a code are the given one, where the code needs one (R72). -/
theorem operandNext_operandOf (c : BitVec 6) (n : Word) :
    operandNext (operandOf c n) = if needsWord c then [n] else [] := by
  have hn := needsWord_operandCode (operandOf c n)
  rw [operandCode_operandOf] at hn
  have hall : operandNext (operandOf c n) = [n] ∨ operandNext (operandOf c n) = [] := by
    unfold operandOf
    repeat' refine ite_cases (motive := fun o => operandNext o = [n] ∨ operandNext o = []) (fun _ => ?_) (fun _ => ?_)
    all_goals first | exact .inl rfl | exact .inr rfl
  rcases hall with h | h <;> rw [h] at hn ⊢ <;> rw [hn] <;> rfl

/-- How many next words an operand brings (R72). -/
theorem length_operandNext (op : Operand) :
    (operandNext op).length = if needsWord (operandCode op) then 1 else 0 := by
  rw [needsWord_operandCode]
  cases op <;> rfl

/-- The footprint of an instruction word of the basic format is the length of what encodes it (R72). -/
theorem footprint_basic (o : BitVec 5) (b a : Operand) (ho : o ≠ 0) (hb : b.fitsB = true) :
    (packWord (operandCode a) ((operandCode b).setWidth 5) o :: (operandNext a ++ operandNext b)).length
      = footprint (packWord (operandCode a) ((operandCode b).setWidth 5) o) := by
  simp only [List.length_cons, List.length_append, length_operandNext, footprint, fieldA_packWord, fieldB_packWord,
    fieldO_packWord, operandCode_fits b hb, ne_eq, ho, not_false_eq_true, true_and]
  omega

/-- The footprint of an instruction word of the extended format is the length of what encodes it (R72). -/
theorem footprint_extended (e : BitVec 5) (a : Operand) :
    (packWord (operandCode a) e 0 :: operandNext a).length = footprint (packWord (operandCode a) e 0) := by
  simp only [List.length_cons, length_operandNext, footprint, fieldA_packWord, fieldO_packWord, ne_eq, not_true_eq_false,
    false_and, if_false]
  omega

/-! ### Opcodes and instructions -/

/-- The instruction of a primary opcode has that opcode (R76). -/
theorem primaryInstr_shape {o : BitVec 5} {b a : Operand} {i : Instr} (h : primaryInstr o b a = some i) :
    instrShape i = .basic o b a := by
  have hk : ∀ k : Fin 32, primaryInstr (BitVec.ofFin k) b a = some i → instrShape i = .basic (BitVec.ofFin k) b a := by
    intro k hi
    fin_cases k <;> first | (cases hi; rfl) | cases hi
  exact hk o.toFin h

/-- The instruction of an extended opcode has that opcode (R77). -/
theorem extendedInstr_shape {e : BitVec 5} {a : Operand} {i : Instr} (h : extendedInstr e a = some i) :
    instrShape i = .extended e a := by
  have hk : ∀ k : Fin 32, extendedInstr (BitVec.ofFin k) a = some i → instrShape i = .extended (BitVec.ofFin k) a := by
    intro k hi
    fin_cases k <;> first | (cases hi; rfl) | cases hi
  exact hk e.toFin h

/-- Every instruction of the basic format is found under its opcode, which is not 0 (R71, R76). -/
theorem primaryInstr_of_shape {i : Instr} {o : BitVec 5} {b a : Operand} (h : instrShape i = .basic o b a) :
    primaryInstr o b a = some i ∧ o ≠ 0 := by
  cases i <;> cases h <;> exact ⟨rfl, by decide⟩

/-- Every instruction of the extended format is found under its opcode (R77). -/
theorem extendedInstr_of_shape {i : Instr} {e : BitVec 5} {a : Operand} (h : instrShape i = .extended e a) :
    extendedInstr e a = some i := by
  cases i <;> cases h <;> rfl

/-- An instruction of the basic format is well formed where its destination fits its field (R73). -/
theorem wellFormed_of_basic {i : Instr} {o : BitVec 5} {b a : Operand} (h : instrShape i = .basic o b a) :
    i.wellFormed = b.fitsB := by
  cases i <;> cases h <;> rfl

/-- An instruction of the extended format is well formed (R73, R79). -/
theorem wellFormed_of_extended {i : Instr} {e : BitVec 5} {a : Operand} (h : instrShape i = .extended e a) :
    i.wellFormed = true := by
  cases i <;> cases h <;> rfl

/-- An instruction occupies one to three words (R72). -/
theorem footprint_bounds (w : Word) : 1 ≤ footprint w ∧ footprint w ≤ 3 := by
  unfold footprint
  split <;> split <;> omega

/-- A word of the extended format has at most one next word (R71, R72). -/
theorem footprint_le_two (w : Word) (h : fieldO w = 0) : footprint w ≤ 2 := by
  simp only [footprint, h, ne_eq, not_true_eq_false, false_and, if_false]
  split <;> omega

/-- Everything the decoder can answer: a basic or an extended instruction with the word's own fields, and its
footprint (R70..R74). -/
theorem decode_cases {w n₁ n₂ : Word} {i : Instr} {n : Nat} (h : decode w n₁ n₂ = .ok (i, n)) :
    n = footprint w ∧
    ((fieldO w = 0 ∧ instrShape i = .extended (fieldB w) (operandA w n₁)) ∨
     (fieldO w ≠ 0 ∧ instrShape i = .basic (fieldO w) (operandB w n₁ n₂) (operandA w n₁))) := by
  unfold decode at h
  split at h
  · next h0 =>
    split at h
    · next j hj => cases h; exact ⟨rfl, .inl ⟨h0, extendedInstr_shape hj⟩⟩
    · cases h
  · next h0 =>
    split at h
    · next j hj => cases h; exact ⟨rfl, .inr ⟨h0, primaryInstr_shape hj⟩⟩
    · cases h

/-- Which primary opcodes are undefined, beside the escape 0 (R76, R78). -/
theorem primaryInstr_eq_none_iff (o : BitVec 5) (b a : Operand) (ho : o ≠ 0) :
    primaryInstr o b a = none ↔ o.toNat ∈ [0x18, 0x19, 0x1C, 0x1D] := by
  have hk : ∀ k : Fin 32, k.val ≠ 0 →
      (primaryInstr (BitVec.ofFin k) b a = none ↔ k.val ∈ [0x18, 0x19, 0x1C, 0x1D]) := by
    intro k hk
    fin_cases k <;> first | exact absurd rfl hk | simp [primaryInstr]
  exact hk o.toFin (fun e => ho (BitVec.eq_of_toNat_eq e))

/-- Which extended opcodes are undefined (R77, R78). -/
theorem extendedInstr_eq_none_iff (e : BitVec 5) (a : Operand) :
    extendedInstr e a = none ↔ e.toNat ∉ [0x01, 0x08, 0x09, 0x0A, 0x0B, 0x0C, 0x10, 0x11, 0x12] := by
  have hk : ∀ k : Fin 32, extendedInstr (BitVec.ofFin k) a = none ↔
      k.val ∉ [0x01, 0x08, 0x09, 0x0A, 0x0B, 0x0C, 0x10, 0x11, 0x12] := by
    intro k
    fin_cases k <;> simp [extendedInstr]
  exact hk e.toFin

/-- Only the stack form has the code 0x18 (R91). -/
theorem operandCode_eq_pushPop (op : Operand) : operandCode op = 0x18 ↔ op = .pushPop := by
  cases op with
  | reg r | ind r | idx r m => cases r <;> simp [operandCode, regIndex]
  | small k =>
    have h := operandCode_small_toNat k
    constructor
    · intro e
      rw [e] at h
      simp at h
      omega
    · intro e
      cases e
  | _ => simp [operandCode]

end Sys2Proof
end

