-- ==== Sys2Proof/Laws/Memory.lean ====
section
/-! SUPPORT. Memory: a read after a write, and the canonical form that every memory operation keeps. -/

namespace Sys2Proof.Machine

/-! ### Byte cells -/

theorem byteAt_filter_same (m : Memory) (k : Nat) : byteAt (m.filter (fun c => c.1 ≠ k)) k = unlistedByte := by
  induction m with
  | nil => rfl
  | cons c m ih =>
    obtain ⟨k', v⟩ := c
    rw [List.filter_cons]
    split
    · next h =>
      have hk : k ≠ k' := fun e => by simp [e] at h
      simpa [byteAt, hk] using ih
    · exact ih

theorem byteAt_filter_other (m : Memory) (k q : Nat) (h : q ≠ k) :
    byteAt (m.filter (fun c => c.1 ≠ k)) q = byteAt m q := by
  induction m with
  | nil => rfl
  | cons c m ih =>
    obtain ⟨k', v⟩ := c
    rw [List.filter_cons]
    split
    · simp only [byteAt]
      split
      · rfl
      · exact ih
    · next hk =>
      have hk' : k' = k := by simpa using hk
      simpa [byteAt, hk', h] using ih

theorem byteAt_insertCell_same (m : Memory) (k : Nat) (v : Byte)
    (hn : ∀ c ∈ m, c.1 ≠ k) : byteAt (insertCell k v m) k = v := by
  induction m with
  | nil => simp [insertCell, byteAt]
  | cons c m ih =>
    obtain ⟨k', v'⟩ := c
    have hk : k ≠ k' := fun e => hn (k', v') (by simp) e.symm
    simp only [insertCell]
    split
    · simp [byteAt]
    · simp [byteAt, hk, ih (fun c hc => hn c (by simp [hc]))]

theorem byteAt_insertCell_other (m : Memory) (k q : Nat) (v : Byte) (h : q ≠ k) :
    byteAt (insertCell k v m) q = byteAt m q := by
  induction m with
  | nil => simp [insertCell, byteAt, h]
  | cons c m ih =>
    obtain ⟨k', v'⟩ := c
    simp only [insertCell]
    split
    · simp [byteAt, h]
    · simp [byteAt, ih]

theorem byteAt_setByte_same (m : Memory) (k : Nat) (v : Byte) : byteAt (setByte m k v) k = v := by
  unfold setByte
  split
  · next h => rw [byteAt_filter_same, h]
  · exact byteAt_insertCell_same _ k v (fun c hc => by simpa using (List.mem_filter.mp hc).2)

theorem byteAt_setByte_other (m : Memory) (k q : Nat) (v : Byte) (h : q ≠ k) :
    byteAt (setByte m k v) q = byteAt m q := by
  unfold setByte
  split
  · exact byteAt_filter_other m k q h
  · rw [byteAt_insertCell_other _ k q v h, byteAt_filter_other m k q h]

theorem byteAt_setByte (m : Memory) (k q : Nat) (v : Byte) :
    byteAt (setByte m k v) q = if q = k then v else byteAt m q := by
  split
  · next h => rw [h, byteAt_setByte_same]
  · next h => exact byteAt_setByte_other m k q v h

/-! ### Words -/

/-- A cell reads as the word last written to it (R51). -/
@[simp] theorem readWord_writeWord_same (m : Memory) (a v : Word) : readWord (writeWord m a v) a = v := by
  have h : 2 * a.toNat ≠ 2 * a.toNat + 1 := by omega
  simp only [readWord, writeWord, byteAt_setByte, if_true, if_neg h]
  apply BitVec.eq_of_getElem_eq
  intro i hi
  rw [BitVec.getElem_append]
  split
  · rw [BitVec.getElem_extractLsb', BitVec.getLsbD_eq_getElem (by omega)]
    congr 1
    omega
  · rw [BitVec.getElem_extractLsb', BitVec.getLsbD_eq_getElem (by omega)]
    congr 1
    omega

/-- A write changes no other cell (R51). -/
theorem readWord_writeWord_other (m : Memory) (a q v : Word) (h : q ≠ a) :
    readWord (writeWord m a v) q = readWord m q := by
  have hn : q.toNat ≠ a.toNat := fun e => h (BitVec.eq_of_toNat_eq e)
  simp only [readWord, writeWord, byteAt_setByte]
  rw [if_neg (by omega), if_neg (by omega), if_neg (by omega), if_neg (by omega)]

theorem readWord_writeWord (m : Memory) (a q v : Word) :
    readWord (writeWord m a v) q = if q = a then v else readWord m q := by
  split
  · next h => rw [h, readWord_writeWord_same]
  · next h => exact readWord_writeWord_other m a q v h

theorem memRead_memWrite (a q v : Word) (s : State) :
    memRead q (memWrite a v s) = if q = a then v else memRead q s :=
  readWord_writeWord s.mem a q v

/-- An empty memory reads as zero everywhere (R37). -/
@[simp] theorem readWord_nil (a : Word) : readWord [] a = 0 := by
  simp [readWord, byteAt, unlistedByte]

/-! ### The canonical form -/

theorem cellsFrom_mono (m : Memory) {lo lo' : Nat} (h : lo ≤ lo') (hm : cellsFrom lo' m = true) :
    cellsFrom lo m = true := by
  cases m with
  | nil => rfl
  | cons c m =>
    obtain ⟨k, v⟩ := c
    simp only [cellsFrom, Bool.and_eq_true, decide_eq_true_eq] at hm ⊢
    exact ⟨⟨⟨by omega, hm.1.1.2⟩, hm.1.2⟩, hm.2⟩

theorem cellsFrom_filter (m : Memory) (k lo : Nat) (hm : cellsFrom lo m = true) :
    cellsFrom lo (m.filter (fun c => c.1 ≠ k)) = true := by
  induction m generalizing lo with
  | nil => rfl
  | cons c m ih =>
    obtain ⟨k', v⟩ := c
    simp only [cellsFrom, Bool.and_eq_true, decide_eq_true_eq] at hm
    rw [List.filter_cons]
    split
    · simp only [cellsFrom, Bool.and_eq_true, decide_eq_true_eq]
      exact ⟨hm.1, ih _ hm.2⟩
    · exact cellsFrom_mono _ (by omega) (ih _ hm.2)

theorem cellsFrom_insertCell (m : Memory) (k lo : Nat) (v : Byte) (hm : cellsFrom lo m = true)
    (hn : ∀ c ∈ m, c.1 ≠ k) (hlo : lo ≤ k) (hk : k < 131072) (hv : v ≠ unlistedByte) :
    cellsFrom lo (insertCell k v m) = true := by
  induction m generalizing lo with
  | nil => simp [insertCell, cellsFrom, hlo, hk, hv]
  | cons c m ih =>
    obtain ⟨k', v'⟩ := c
    have hne : k' ≠ k := hn (k', v') (by simp)
    simp only [cellsFrom, Bool.and_eq_true, decide_eq_true_eq] at hm
    simp only [insertCell]
    split
    · simp only [cellsFrom, Bool.and_eq_true, decide_eq_true_eq]
      exact ⟨⟨⟨hlo, hk⟩, hv⟩, ⟨⟨by omega, hm.1.1.2⟩, hm.1.2⟩, hm.2⟩
    · simp only [cellsFrom, Bool.and_eq_true, decide_eq_true_eq]
      exact ⟨hm.1, ih _ hm.2 (fun c hc => hn c (by simp [hc])) (by omega)⟩

theorem wf_setByte (m : Memory) (k : Nat) (v : Byte) (hm : Memory.wf m = true) (hk : k < 131072) :
    Memory.wf (setByte m k v) = true := by
  unfold setByte
  split
  · exact cellsFrom_filter m k 0 hm
  · next hv =>
    exact cellsFrom_insertCell _ k 0 v (cellsFrom_filter m k 0 hm)
      (fun c hc => by simpa using (List.mem_filter.mp hc).2) (by omega) hk hv

/-- A word write keeps the canonical form. -/
theorem wf_writeWord (m : Memory) (a v : Word) (hm : Memory.wf m = true) : Memory.wf (writeWord m a v) = true := by
  have h := a.isLt
  exact wf_setByte _ _ _ (wf_setByte _ _ _ hm (by omega)) (by omega)

/-- A list of word writes keeps the canonical form. -/
theorem wf_writeAll (ws : List (Word × Word)) (m : Memory) (hm : Memory.wf m = true) :
    Memory.wf (writeAll ws m) = true := by
  induction ws generalizing m with
  | nil => exact hm
  | cons w ws ih => exact ih _ (wf_writeWord m w.1 w.2 hm)

theorem byteAt_below (m : Memory) (lo k : Nat) (hm : cellsFrom lo m = true) (hk : k < lo) :
    byteAt m k = unlistedByte := by
  induction m generalizing lo with
  | nil => rfl
  | cons c m ih =>
    obtain ⟨k', v⟩ := c
    simp only [cellsFrom, Bool.and_eq_true, decide_eq_true_eq] at hm
    have hne : k ≠ k' := by omega
    simpa [byteAt, hne] using ih (k' + 1) hm.2 (by omega)

/-- Two memories in canonical form that agree byte by byte are the same list. -/
theorem memory_eq_of_byteAt (m m' : Memory) (lo : Nat) (hm : cellsFrom lo m = true) (hm' : cellsFrom lo m' = true)
    (h : ∀ k < 131072, byteAt m k = byteAt m' k) : m = m' := by
  induction m generalizing m' lo with
  | nil =>
    cases m' with
    | nil => rfl
    | cons c m' =>
      obtain ⟨k, v⟩ := c
      simp only [cellsFrom, Bool.and_eq_true, decide_eq_true_eq] at hm'
      have hb := h k hm'.1.1.2
      simp only [byteAt, if_true] at hb
      exact absurd hb.symm hm'.1.2
  | cons c m ih =>
    obtain ⟨k, v⟩ := c
    simp only [cellsFrom, Bool.and_eq_true, decide_eq_true_eq] at hm
    have hb := h k hm.1.1.2
    simp only [byteAt, if_true] at hb
    cases m' with
    | nil => exact absurd hb hm.1.2
    | cons c' m' =>
      obtain ⟨k', v'⟩ := c'
      simp only [cellsFrom, Bool.and_eq_true, decide_eq_true_eq] at hm'
      have hkk : k = k' := by
        rcases Nat.lt_trichotomy k k' with hlt | heq | hgt
        · exfalso
          have hne : k ≠ k' := by omega
          simp only [byteAt, if_neg hne] at hb
          rw [byteAt_below m' (k' + 1) k hm'.2 (by omega)] at hb
          exact hm.1.2 hb
        · exact heq
        · exfalso
          have hb' := h k' hm'.1.1.2
          have hne : k' ≠ k := by omega
          simp only [byteAt, if_neg hne, if_true] at hb'
          rw [byteAt_below m (k + 1) k' hm.2 (by omega)] at hb'
          exact hm'.1.2 hb'.symm
      subst hkk
      simp only [byteAt, if_true] at hb
      subst hb
      have hrest : m = m' := by
        apply ih m' (k + 1) hm.2 hm'.2
        intro q hq
        have hbq := h q hq
        simp only [byteAt] at hbq
        split at hbq
        · next e =>
          rw [byteAt_below m (k + 1) q hm.2 (by omega), byteAt_below m' (k + 1) q hm'.2 (by omega)]
        · exact hbq
      rw [hrest]

/-! ### Writing back, lists of writes, and the bytes of a word -/

/-- Writing what a cell holds changes what no cell reads as. -/
theorem readWord_writeWord_self (m : Memory) (a x : Word) : readWord (writeWord m a (readWord m a)) x = readWord m x := by
  rw [readWord_writeWord]
  split
  · next h => rw [h]
  · rfl

/-- A list of word writes reaches only the cells it names. -/
theorem readWord_writeAll_other (ws : List (Word × Word)) (m : Memory) (x : Word) (h : ∀ w ∈ ws, w.1 ≠ x) :
    readWord (writeAll ws m) x = readWord m x := by
  induction ws generalizing m with
  | nil => rfl
  | cons w ws ih =>
    rw [writeAll, ih _ (fun w' hw => h w' (List.mem_cons_of_mem _ hw)),
      readWord_writeWord_other _ _ _ _ (fun e => h w (by simp) e.symm)]

theorem append_high (x y : Byte) : (x ++ y).extractLsb' 8 8 = x := by
  apply BitVec.eq_of_toNat_eq
  rw [BitVec.extractLsb'_toNat, BitVec.toNat_append, Nat.shiftLeft_eq, ← Nat.mul_comm (2 ^ 8),
    ← Nat.two_pow_add_eq_or_of_lt y.isLt, Nat.shiftRight_eq_div_pow]
  omega

theorem append_low (x y : Byte) : (x ++ y).extractLsb' 0 8 = y := by
  apply BitVec.eq_of_toNat_eq
  rw [BitVec.extractLsb'_toNat, BitVec.toNat_append, Nat.shiftLeft_eq, ← Nat.mul_comm (2 ^ 8),
    ← Nat.two_pow_add_eq_or_of_lt y.isLt, Nat.shiftRight_eq_div_pow]
  omega

end Sys2Proof.Machine
end

