-- ==== Sys2Proof/Laws/State.lean ====
section
/-! SUPPORT. What each named update of the state leaves in each field. -/

namespace Sys2Proof.Machine

variable (s : State)

/-! ### setReg -/

@[simp] theorem setReg_regs (r : Reg) (v : Word) : (setReg r v s).regs = writeReg s.regs r v := rfl
@[simp] theorem setReg_pc (r : Reg) (v : Word) : (setReg r v s).pc = s.pc := rfl
@[simp] theorem setReg_sp (r : Reg) (v : Word) : (setReg r v s).sp = s.sp := rfl
@[simp] theorem setReg_ex (r : Reg) (v : Word) : (setReg r v s).ex = s.ex := rfl
@[simp] theorem setReg_ia (r : Reg) (v : Word) : (setReg r v s).ia = s.ia := rfl
@[simp] theorem setReg_tick (r : Reg) (v : Word) : (setReg r v s).tick = s.tick := rfl
@[simp] theorem setReg_iq (r : Reg) (v : Word) : (setReg r v s).iq = s.iq := rfl
@[simp] theorem setReg_queue (r : Reg) (v : Word) : (setReg r v s).queue = s.queue := rfl
@[simp] theorem setReg_halted (r : Reg) (v : Word) : (setReg r v s).halted = s.halted := rfl
@[simp] theorem setReg_mem (r : Reg) (v : Word) : (setReg r v s).mem = s.mem := rfl
@[simp] theorem setReg_config (r : Reg) (v : Word) : (setReg r v s).config = s.config := rfl
@[simp] theorem setReg_devCalls (r : Reg) (v : Word) : (setReg r v s).devCalls = s.devCalls := rfl

/-! ### setPc -/

@[simp] theorem setPc_regs (v : Word) : (setPc v s).regs = s.regs := rfl
@[simp] theorem setPc_pc (v : Word) : (setPc v s).pc = v := rfl
@[simp] theorem setPc_sp (v : Word) : (setPc v s).sp = s.sp := rfl
@[simp] theorem setPc_ex (v : Word) : (setPc v s).ex = s.ex := rfl
@[simp] theorem setPc_ia (v : Word) : (setPc v s).ia = s.ia := rfl
@[simp] theorem setPc_tick (v : Word) : (setPc v s).tick = s.tick := rfl
@[simp] theorem setPc_iq (v : Word) : (setPc v s).iq = s.iq := rfl
@[simp] theorem setPc_queue (v : Word) : (setPc v s).queue = s.queue := rfl
@[simp] theorem setPc_halted (v : Word) : (setPc v s).halted = s.halted := rfl
@[simp] theorem setPc_mem (v : Word) : (setPc v s).mem = s.mem := rfl
@[simp] theorem setPc_config (v : Word) : (setPc v s).config = s.config := rfl
@[simp] theorem setPc_devCalls (v : Word) : (setPc v s).devCalls = s.devCalls := rfl

/-! ### setSp -/

@[simp] theorem setSp_regs (v : Word) : (setSp v s).regs = s.regs := rfl
@[simp] theorem setSp_pc (v : Word) : (setSp v s).pc = s.pc := rfl
@[simp] theorem setSp_sp (v : Word) : (setSp v s).sp = v := rfl
@[simp] theorem setSp_ex (v : Word) : (setSp v s).ex = s.ex := rfl
@[simp] theorem setSp_ia (v : Word) : (setSp v s).ia = s.ia := rfl
@[simp] theorem setSp_tick (v : Word) : (setSp v s).tick = s.tick := rfl
@[simp] theorem setSp_iq (v : Word) : (setSp v s).iq = s.iq := rfl
@[simp] theorem setSp_queue (v : Word) : (setSp v s).queue = s.queue := rfl
@[simp] theorem setSp_halted (v : Word) : (setSp v s).halted = s.halted := rfl
@[simp] theorem setSp_mem (v : Word) : (setSp v s).mem = s.mem := rfl
@[simp] theorem setSp_config (v : Word) : (setSp v s).config = s.config := rfl
@[simp] theorem setSp_devCalls (v : Word) : (setSp v s).devCalls = s.devCalls := rfl

/-! ### setEx -/

@[simp] theorem setEx_regs (v : Word) : (setEx v s).regs = s.regs := rfl
@[simp] theorem setEx_pc (v : Word) : (setEx v s).pc = s.pc := rfl
@[simp] theorem setEx_sp (v : Word) : (setEx v s).sp = s.sp := rfl
@[simp] theorem setEx_ex (v : Word) : (setEx v s).ex = v := rfl
@[simp] theorem setEx_ia (v : Word) : (setEx v s).ia = s.ia := rfl
@[simp] theorem setEx_tick (v : Word) : (setEx v s).tick = s.tick := rfl
@[simp] theorem setEx_iq (v : Word) : (setEx v s).iq = s.iq := rfl
@[simp] theorem setEx_queue (v : Word) : (setEx v s).queue = s.queue := rfl
@[simp] theorem setEx_halted (v : Word) : (setEx v s).halted = s.halted := rfl
@[simp] theorem setEx_mem (v : Word) : (setEx v s).mem = s.mem := rfl
@[simp] theorem setEx_config (v : Word) : (setEx v s).config = s.config := rfl
@[simp] theorem setEx_devCalls (v : Word) : (setEx v s).devCalls = s.devCalls := rfl

/-! ### setIa -/

@[simp] theorem setIa_regs (v : Word) : (setIa v s).regs = s.regs := rfl
@[simp] theorem setIa_pc (v : Word) : (setIa v s).pc = s.pc := rfl
@[simp] theorem setIa_sp (v : Word) : (setIa v s).sp = s.sp := rfl
@[simp] theorem setIa_ex (v : Word) : (setIa v s).ex = s.ex := rfl
@[simp] theorem setIa_ia (v : Word) : (setIa v s).ia = v := rfl
@[simp] theorem setIa_tick (v : Word) : (setIa v s).tick = s.tick := rfl
@[simp] theorem setIa_iq (v : Word) : (setIa v s).iq = s.iq := rfl
@[simp] theorem setIa_queue (v : Word) : (setIa v s).queue = s.queue := rfl
@[simp] theorem setIa_halted (v : Word) : (setIa v s).halted = s.halted := rfl
@[simp] theorem setIa_mem (v : Word) : (setIa v s).mem = s.mem := rfl
@[simp] theorem setIa_config (v : Word) : (setIa v s).config = s.config := rfl
@[simp] theorem setIa_devCalls (v : Word) : (setIa v s).devCalls = s.devCalls := rfl

/-! ### setIq -/

@[simp] theorem setIq_regs (v : Bool) : (setIq v s).regs = s.regs := rfl
@[simp] theorem setIq_pc (v : Bool) : (setIq v s).pc = s.pc := rfl
@[simp] theorem setIq_sp (v : Bool) : (setIq v s).sp = s.sp := rfl
@[simp] theorem setIq_ex (v : Bool) : (setIq v s).ex = s.ex := rfl
@[simp] theorem setIq_ia (v : Bool) : (setIq v s).ia = s.ia := rfl
@[simp] theorem setIq_tick (v : Bool) : (setIq v s).tick = s.tick := rfl
@[simp] theorem setIq_iq (v : Bool) : (setIq v s).iq = v := rfl
@[simp] theorem setIq_queue (v : Bool) : (setIq v s).queue = s.queue := rfl
@[simp] theorem setIq_halted (v : Bool) : (setIq v s).halted = s.halted := rfl
@[simp] theorem setIq_mem (v : Bool) : (setIq v s).mem = s.mem := rfl
@[simp] theorem setIq_config (v : Bool) : (setIq v s).config = s.config := rfl
@[simp] theorem setIq_devCalls (v : Bool) : (setIq v s).devCalls = s.devCalls := rfl

/-! ### setQueue -/

@[simp] theorem setQueue_regs (q : List Word) : (setQueue q s).regs = s.regs := rfl
@[simp] theorem setQueue_pc (q : List Word) : (setQueue q s).pc = s.pc := rfl
@[simp] theorem setQueue_sp (q : List Word) : (setQueue q s).sp = s.sp := rfl
@[simp] theorem setQueue_ex (q : List Word) : (setQueue q s).ex = s.ex := rfl
@[simp] theorem setQueue_ia (q : List Word) : (setQueue q s).ia = s.ia := rfl
@[simp] theorem setQueue_tick (q : List Word) : (setQueue q s).tick = s.tick := rfl
@[simp] theorem setQueue_iq (q : List Word) : (setQueue q s).iq = s.iq := rfl
@[simp] theorem setQueue_queue (q : List Word) : (setQueue q s).queue = q := rfl
@[simp] theorem setQueue_halted (q : List Word) : (setQueue q s).halted = s.halted := rfl
@[simp] theorem setQueue_mem (q : List Word) : (setQueue q s).mem = s.mem := rfl
@[simp] theorem setQueue_config (q : List Word) : (setQueue q s).config = s.config := rfl
@[simp] theorem setQueue_devCalls (q : List Word) : (setQueue q s).devCalls = s.devCalls := rfl

/-! ### charge -/

@[simp] theorem charge_regs (n : Nat) : (charge n s).regs = s.regs := rfl
@[simp] theorem charge_pc (n : Nat) : (charge n s).pc = s.pc := rfl
@[simp] theorem charge_sp (n : Nat) : (charge n s).sp = s.sp := rfl
@[simp] theorem charge_ex (n : Nat) : (charge n s).ex = s.ex := rfl
@[simp] theorem charge_ia (n : Nat) : (charge n s).ia = s.ia := rfl
@[simp] theorem charge_tick (n : Nat) : (charge n s).tick = s.tick + BitVec.ofNat 16 n := rfl
@[simp] theorem charge_iq (n : Nat) : (charge n s).iq = s.iq := rfl
@[simp] theorem charge_queue (n : Nat) : (charge n s).queue = s.queue := rfl
@[simp] theorem charge_halted (n : Nat) : (charge n s).halted = s.halted := rfl
@[simp] theorem charge_mem (n : Nat) : (charge n s).mem = s.mem := rfl
@[simp] theorem charge_config (n : Nat) : (charge n s).config = s.config := rfl
@[simp] theorem charge_devCalls (n : Nat) : (charge n s).devCalls = s.devCalls := rfl

/-! ### setDevCalls -/

@[simp] theorem setDevCalls_regs (n : Nat) : (setDevCalls n s).regs = s.regs := rfl
@[simp] theorem setDevCalls_pc (n : Nat) : (setDevCalls n s).pc = s.pc := rfl
@[simp] theorem setDevCalls_sp (n : Nat) : (setDevCalls n s).sp = s.sp := rfl
@[simp] theorem setDevCalls_ex (n : Nat) : (setDevCalls n s).ex = s.ex := rfl
@[simp] theorem setDevCalls_ia (n : Nat) : (setDevCalls n s).ia = s.ia := rfl
@[simp] theorem setDevCalls_tick (n : Nat) : (setDevCalls n s).tick = s.tick := rfl
@[simp] theorem setDevCalls_iq (n : Nat) : (setDevCalls n s).iq = s.iq := rfl
@[simp] theorem setDevCalls_queue (n : Nat) : (setDevCalls n s).queue = s.queue := rfl
@[simp] theorem setDevCalls_halted (n : Nat) : (setDevCalls n s).halted = s.halted := rfl
@[simp] theorem setDevCalls_mem (n : Nat) : (setDevCalls n s).mem = s.mem := rfl
@[simp] theorem setDevCalls_config (n : Nat) : (setDevCalls n s).config = s.config := rfl
@[simp] theorem setDevCalls_devCalls (n : Nat) : (setDevCalls n s).devCalls = n := rfl

/-! ### memWrite -/

@[simp] theorem memWrite_regs (a v : Word) : (memWrite a v s).regs = s.regs := rfl
@[simp] theorem memWrite_pc (a v : Word) : (memWrite a v s).pc = s.pc := rfl
@[simp] theorem memWrite_sp (a v : Word) : (memWrite a v s).sp = s.sp := rfl
@[simp] theorem memWrite_ex (a v : Word) : (memWrite a v s).ex = s.ex := rfl
@[simp] theorem memWrite_ia (a v : Word) : (memWrite a v s).ia = s.ia := rfl
@[simp] theorem memWrite_tick (a v : Word) : (memWrite a v s).tick = s.tick := rfl
@[simp] theorem memWrite_iq (a v : Word) : (memWrite a v s).iq = s.iq := rfl
@[simp] theorem memWrite_queue (a v : Word) : (memWrite a v s).queue = s.queue := rfl
@[simp] theorem memWrite_halted (a v : Word) : (memWrite a v s).halted = s.halted := rfl
@[simp] theorem memWrite_mem (a v : Word) : (memWrite a v s).mem = writeWord s.mem a v := rfl
@[simp] theorem memWrite_config (a v : Word) : (memWrite a v s).config = s.config := rfl
@[simp] theorem memWrite_devCalls (a v : Word) : (memWrite a v s).devCalls = s.devCalls := rfl

/-! ### raiseFault -/

@[simp] theorem raiseFault_regs (h : Halt) : (raiseFault h s).regs = s.regs := rfl
@[simp] theorem raiseFault_pc (h : Halt) : (raiseFault h s).pc = s.pc := rfl
@[simp] theorem raiseFault_sp (h : Halt) : (raiseFault h s).sp = s.sp := rfl
@[simp] theorem raiseFault_ex (h : Halt) : (raiseFault h s).ex = s.ex := rfl
@[simp] theorem raiseFault_ia (h : Halt) : (raiseFault h s).ia = s.ia := rfl
@[simp] theorem raiseFault_tick (h : Halt) : (raiseFault h s).tick = s.tick := rfl
@[simp] theorem raiseFault_iq (h : Halt) : (raiseFault h s).iq = s.iq := rfl
@[simp] theorem raiseFault_queue (h : Halt) : (raiseFault h s).queue = s.queue := rfl
@[simp] theorem raiseFault_halted (h : Halt) : (raiseFault h s).halted = some h := rfl
@[simp] theorem raiseFault_mem (h : Halt) : (raiseFault h s).mem = s.mem := rfl
@[simp] theorem raiseFault_config (h : Halt) : (raiseFault h s).config = s.config := rfl
@[simp] theorem raiseFault_devCalls (h : Halt) : (raiseFault h s).devCalls = s.devCalls := rfl

/-! ### advance -/

@[simp] theorem advance_regs (n : Nat) : (advance n s).regs = s.regs := rfl
@[simp] theorem advance_pc (n : Nat) : (advance n s).pc = s.pc + BitVec.ofNat 16 n := rfl
@[simp] theorem advance_sp (n : Nat) : (advance n s).sp = s.sp := rfl
@[simp] theorem advance_ex (n : Nat) : (advance n s).ex = s.ex := rfl
@[simp] theorem advance_ia (n : Nat) : (advance n s).ia = s.ia := rfl
@[simp] theorem advance_tick (n : Nat) : (advance n s).tick = s.tick + BitVec.ofNat 16 n := rfl
@[simp] theorem advance_iq (n : Nat) : (advance n s).iq = s.iq := rfl
@[simp] theorem advance_queue (n : Nat) : (advance n s).queue = s.queue := rfl
@[simp] theorem advance_halted (n : Nat) : (advance n s).halted = s.halted := rfl
@[simp] theorem advance_mem (n : Nat) : (advance n s).mem = s.mem := rfl
@[simp] theorem advance_config (n : Nat) : (advance n s).config = s.config := rfl
@[simp] theorem advance_devCalls (n : Nat) : (advance n s).devCalls = s.devCalls := rfl

/-! ### push -/

@[simp] theorem push_regs (v : Word) : (push v s).regs = s.regs := rfl
@[simp] theorem push_pc (v : Word) : (push v s).pc = s.pc := rfl
@[simp] theorem push_sp (v : Word) : (push v s).sp = s.sp - 1 := rfl
@[simp] theorem push_ex (v : Word) : (push v s).ex = s.ex := rfl
@[simp] theorem push_ia (v : Word) : (push v s).ia = s.ia := rfl
@[simp] theorem push_tick (v : Word) : (push v s).tick = s.tick := rfl
@[simp] theorem push_iq (v : Word) : (push v s).iq = s.iq := rfl
@[simp] theorem push_queue (v : Word) : (push v s).queue = s.queue := rfl
@[simp] theorem push_halted (v : Word) : (push v s).halted = s.halted := rfl
@[simp] theorem push_mem (v : Word) : (push v s).mem = writeWord s.mem (s.sp - 1) v := rfl
@[simp] theorem push_config (v : Word) : (push v s).config = s.config := rfl
@[simp] theorem push_devCalls (v : Word) : (push v s).devCalls = s.devCalls := rfl

/-! ### reading after an update -/

@[simp] theorem readReg_writeReg_same (g : Regs) (r : Reg) (v : Word) : readReg (writeReg g r v) r = v := by
  cases r <;> rfl

theorem readReg_writeReg_other (g : Regs) (r q : Reg) (v : Word) (h : q ≠ r) :
    readReg (writeReg g r v) q = readReg g q := by
  cases r <;> cases q <;> first | rfl | exact absurd rfl h

theorem readReg_writeReg (g : Regs) (r q : Reg) (v : Word) :
    readReg (writeReg g r v) q = if q = r then v else readReg g q := by
  split
  · next h => rw [h, readReg_writeReg_same]
  · next h => exact readReg_writeReg_other g r q v h

/-- Two register files that read alike are equal. -/
theorem regs_ext_of_readReg {g g' : Regs} (h : ∀ r, readReg g r = readReg g' r) : g = g' := by
  obtain ⟨_, _, _, _, _, _, _, _⟩ := g
  obtain ⟨_, _, _, _, _, _, _, _⟩ := g'
  have hA := h .A
  have hB := h .B
  have hC := h .C
  have hX := h .X
  have hY := h .Y
  have hZ := h .Z
  have hI := h .I
  have hJ := h .J
  simp only [readReg] at hA hB hC hX hY hZ hI hJ
  subst hA hB hC hX hY hZ hI hJ
  rfl

theorem memRead_eq (a : Word) : memRead a s = readWord s.mem a := rfl

theorem fetch_eq : fetch s = (memRead s.pc s, advance 1 s) := rfl

theorem advance_advance (m n : Nat) : advance n (advance m s) = advance (m + n) s := by
  simp [advance, charge, setPc, BitVec.ofNat_add, BitVec.add_assoc]

end Sys2Proof.Machine
end

