-- ==== Sys2Proof/Laws/Operands.lean ====
section
/-! SUPPORT. The operand resolver: what resolution changes, and what a store reaches. -/

namespace Sys2Proof.Machine

/-! ### Resolution -/

/-- Resolution moves `sp` and changes nothing else (R91). -/
theorem resolve_state (role : Role) (op : Operand) (s : State) :
    (resolve role op s).2 = setSp (s.sp + spDelta role op) s := by
  cases op <;> cases role <;> simp [resolve, spDelta, setSp, sub_eq_add_neg]

/-- The location depends on the general registers and `sp` alone. -/
theorem resolve_loc_congr (role : Role) (op : Operand) {s t : State} (hr : s.regs = t.regs) (hs : s.sp = t.sp) :
    (resolve role op s).1 = (resolve role op t).1 := by
  cases op <;> cases role <;> simp [resolve, hr, hs]

theorem load_congr (l : Loc) {s t : State} (hr : s.regs = t.regs) (hm : s.mem = t.mem) (hs : s.sp = t.sp)
    (hp : s.pc = t.pc) (he : s.ex = t.ex) : load l s = load l t := by
  cases l <;> simp [load, memRead, hr, hm, hs, hp, he]

/-- Resolution commutes with fetching. -/
theorem resolve_advance (role : Role) (op : Operand) (n : Nat) (s : State) :
    resolve role op (advance n s) = ((resolve role op s).1, advance n (resolve role op s).2) := by
  cases op <;> cases role <;> rfl

/-- The state after both operands are resolved. -/
theorem sample_st (b a : Operand) (s : State) :
    (sample b a s).st = setSp (s.sp + spDelta .a a + spDelta .b b) s := by
  simp [sample, resolve_state, setSp]

theorem sampleA_st (a : Operand) (s : State) : (sampleA a s).st = setSp (s.sp + spDelta .a a) s := by
  simp [sampleA, resolve_state]

theorem sample_va (b a : Operand) (s : State) : (sample b a s).va = load (sample b a s).la (sample b a s).st := rfl

theorem sample_vb (b a : Operand) (s : State) : (sample b a s).vb = load (sample b a s).lb (sample b a s).st := rfl

theorem sampleA_va (a : Operand) (s : State) : (sampleA a s).va = load (sampleA a s).la (sampleA a s).st := rfl

/-- The destination is `PC` only for the operand `PC`. -/
theorem sample_lb_eq_pcReg {b a : Operand} {s : State} (h : (sample b a s).lb = .pcReg) : b = .pc := by
  cases b <;> simp_all [sample, resolve]

theorem sampleA_la_eq_pcReg {a : Operand} {s : State} (h : (sampleA a s).la = .pcReg) : a = .pc := by
  cases a <;> simp_all [sampleA, resolve]

/-! ### Stores -/

@[simp] theorem store_ia (l : Loc) (v : Word) (s : State) : (store l v s).ia = s.ia := by cases l <;> rfl
@[simp] theorem store_tick (l : Loc) (v : Word) (s : State) : (store l v s).tick = s.tick := by cases l <;> rfl
@[simp] theorem store_iq (l : Loc) (v : Word) (s : State) : (store l v s).iq = s.iq := by cases l <;> rfl
@[simp] theorem store_queue (l : Loc) (v : Word) (s : State) : (store l v s).queue = s.queue := by cases l <;> rfl
@[simp] theorem store_halted (l : Loc) (v : Word) (s : State) : (store l v s).halted = s.halted := by cases l <;> rfl
@[simp] theorem store_config (l : Loc) (v : Word) (s : State) : (store l v s).config = s.config := by cases l <;> rfl
@[simp] theorem store_devCalls (l : Loc) (v : Word) (s : State) : (store l v s).devCalls = s.devCalls := by cases l <;> rfl

theorem store_regs_frame (l : Loc) (v : Word) (s : State) (r : Reg) (h : l ≠ .reg r) :
    readReg (store l v s).regs r = readReg s.regs r := by
  cases l with
  | reg q => exact readReg_writeReg_other _ _ _ _ (fun e => h (by rw [e]))
  | _ => rfl

theorem store_mem_frame (l : Loc) (v : Word) (s : State) (x : Word) (h : l ≠ .mem x) :
    memRead x (store l v s) = memRead x s := by
  cases l with
  | mem a => exact readWord_writeWord_other _ _ _ _ (fun e => h (by rw [e]))
  | _ => rfl

theorem store_sp (l : Loc) (v : Word) (s : State) (h : l ≠ .spReg) : (store l v s).sp = s.sp := by
  cases l with
  | spReg => exact absurd rfl h
  | _ => rfl

theorem store_pc (l : Loc) (v : Word) (s : State) (h : l ≠ .pcReg) : (store l v s).pc = s.pc := by
  cases l with
  | pcReg => exact absurd rfl h
  | _ => rfl

theorem store_ex (l : Loc) (v : Word) (s : State) (h : l ≠ .exReg) : (store l v s).ex = s.ex := by
  cases l with
  | exReg => exact absurd rfl h
  | _ => rfl

/-- What is stored is loaded, but from a literal (R105, R106). -/
theorem load_store_same (l : Loc) (v : Word) (s : State) (h : ∀ w, l ≠ .lit w) : load l (store l v s) = v := by
  cases l with
  | lit w => exact absurd rfl (h w)
  | reg r => exact readReg_writeReg_same _ _ _
  | mem a => exact readWord_writeWord_same _ _ _
  | _ => rfl

/-- A store reaches no other location (R106). -/
theorem load_store_other (l q : Loc) (v : Word) (s : State) (h : q ≠ l) : load q (store l v s) = load q s := by
  cases q with
  | reg r => exact store_regs_frame l v s r (fun e => h e.symm)
  | mem a => exact store_mem_frame l v s a (fun e => h e.symm)
  | spReg => exact store_sp l v s (fun e => h e.symm)
  | pcReg => exact store_pc l v s (fun e => h e.symm)
  | exReg => exact store_ex l v s (fun e => h e.symm)
  | lit w => rfl

theorem store_keeps_wf (l : Loc) (v : Word) (s : State) (h : Memory.wf s.mem = true) :
    Memory.wf (store l v s).mem = true := by
  cases l with
  | mem a => exact wf_writeWord _ _ _ h
  | _ => exact h

/-- A store does the same where `tick` is `k` higher. -/
theorem store_charge (l : Loc) (v : Word) (k : Nat) (s : State) : store l v (charge k s) = charge k (store l v s) := by
  cases l <;> rfl

/-! ### The frames of the families (Machine/Shapes.lean) -/

@[simp] theorem setExIf_regs (v : Option Word) (s : State) : (setExIf v s).regs = s.regs := by cases v <;> rfl
@[simp] theorem setExIf_pc (v : Option Word) (s : State) : (setExIf v s).pc = s.pc := by cases v <;> rfl
@[simp] theorem setExIf_sp (v : Option Word) (s : State) : (setExIf v s).sp = s.sp := by cases v <;> rfl
@[simp] theorem setExIf_ia (v : Option Word) (s : State) : (setExIf v s).ia = s.ia := by cases v <;> rfl
@[simp] theorem setExIf_tick (v : Option Word) (s : State) : (setExIf v s).tick = s.tick := by cases v <;> rfl
@[simp] theorem setExIf_iq (v : Option Word) (s : State) : (setExIf v s).iq = s.iq := by cases v <;> rfl
@[simp] theorem setExIf_queue (v : Option Word) (s : State) : (setExIf v s).queue = s.queue := by cases v <;> rfl
@[simp] theorem setExIf_halted (v : Option Word) (s : State) : (setExIf v s).halted = s.halted := by cases v <;> rfl
@[simp] theorem setExIf_mem (v : Option Word) (s : State) : (setExIf v s).mem = s.mem := by cases v <;> rfl
@[simp] theorem setExIf_config (v : Option Word) (s : State) : (setExIf v s).config = s.config := by cases v <;> rfl
@[simp] theorem setExIf_devCalls (v : Option Word) (s : State) : (setExIf v s).devCalls = s.devCalls := by cases v <;> rfl

@[simp] theorem setExIf_none (s : State) : setExIf none s = s := rfl

@[simp] theorem setExIf_some (w : Word) (s : State) : setExIf (some w) s = setEx w s := rfl

/-- What `runAlu` answers, with the state after resolution written out. -/
theorem runAlu_eq (i : Instr) (b a : Operand) (f : Word → Word → AluOut) (s : State) :
    runAlu i b a f s = store (sample b a s).lb (f (sample b a s).vb (sample b a s).va).result
      (setExIf (f (sample b a s).vb (sample b a s).va).ex (charge (extraCycles s.config i) (sample b a s).st)) := rfl

/-- Everything `runAlu` leaves alone (R120). -/
theorem runAlu_frame (i : Instr) (b a : Operand) (f : Word → Word → AluOut) (s : State) :
    RegsFrame (sample b a s).lb s (runAlu i b a f s) ∧ MemFrame (sample b a s).lb s (runAlu i b a f s) ∧
    ControlFrame s (runAlu i b a f s) ∧
    ((sample b a s).lb ≠ .spReg → (runAlu i b a f s).sp = s.sp + spDelta .a a + spDelta .b b) ∧
    ((sample b a s).lb ≠ .pcReg → (runAlu i b a f s).pc = s.pc) ∧
    (runAlu i b a f s).tick = s.tick + BitVec.ofNat 16 (extraCycles s.config i) ∧
    (Memory.wf s.mem = true → Memory.wf (runAlu i b a f s).mem = true) := by
  rw [runAlu_eq]
  refine ⟨fun r h => ?_, ⟨fun c hc x hx => ?_, fun hn x => ?_⟩, ?_, fun h => ?_, fun h => ?_, ?_, fun h => ?_⟩
  · rw [store_regs_frame _ _ _ _ h]; simp [sample_st]
  · rw [store_mem_frame _ _ _ _ (by rw [hc]; simpa using fun e => hx e.symm)]; simp [memRead, sample_st]
  · rw [store_mem_frame _ _ _ _ (hn x)]; simp [memRead, sample_st]
  · simp [ControlFrame, sample_st]
  · rw [store_sp _ _ _ h]; simp [sample_st]
  · rw [store_pc _ _ _ h]; simp [sample_st]
  · simp [sample_st]
  · apply store_keeps_wf; simpa [sample_st] using h

/-- `EX` after `runAlu`, where `EX` is not the destination. -/
theorem runAlu_ex (i : Instr) (b a : Operand) (f : Word → Word → AluOut) (s : State)
    (h : (sample b a s).lb ≠ .exReg) :
    (runAlu i b a f s).ex = ((f (sample b a s).vb (sample b a s).va).ex).getD s.ex := by
  rw [runAlu_eq, store_ex _ _ _ h]
  cases (f (sample b a s).vb (sample b a s).va).ex <;> simp [sample_st]

end Sys2Proof.Machine
end

