-- ==== Sys2Proof/Laws/Interrupts.lean ====
section
/-! SUPPORT. The interrupt queue, interrupt entry, the interrupt check and the end of a step: everything each can do. -/

namespace Sys2Proof.Machine

/-- `Enqueue` appends or halts, and does nothing else (R238). -/
theorem enqueue_cases (m : Word) (s : State) :
    (s.queue.length < 256 ∧ enqueue m s = setQueue (s.queue ++ [m]) s) ∨
    (256 ≤ s.queue.length ∧ enqueue m s = raiseFault (.interruptQueueOverflow m) s) := by
  unfold enqueue queueCap
  by_cases h : 256 ≤ s.queue.length
  · exact .inr ⟨h, if_pos h⟩
  · exact .inl ⟨by omega, if_neg h⟩

/-- The interrupt check leaves the state, discards the head of the queue, or enters the handler with it (R239). -/
theorem interruptCheck_cases (s : State) :
    interruptCheck s = s ∨
    (∃ m q, s.iq = false ∧ s.queue = m :: q ∧ s.ia = 0 ∧ interruptCheck s = setQueue q s) ∨
    (∃ m q, s.iq = false ∧ s.queue = m :: q ∧ s.ia ≠ 0 ∧ interruptCheck s = enterInterrupt m (setQueue q s)) := by
  unfold interruptCheck
  split
  · next m q hi hq =>
    by_cases h : s.ia = 0
    · exact .inr (.inl ⟨m, q, hi, hq, h, if_pos h⟩)
    · exact .inr (.inr ⟨m, q, hi, hq, h, if_neg h⟩)
  · exact .inl rfl

/-- Interrupt entry field by field (R243). -/
theorem enterInterrupt_eq (m : Word) (s : State) :
    enterInterrupt m s =
      { s with iq := true, sp := s.sp - 1 - 1, pc := s.ia, regs := { s.regs with a := m },
               mem := writeWord (writeWord s.mem (s.sp - 1) s.pc) (s.sp - 1 - 1) s.regs.a } := rfl

/-- Interrupt return field by field (R244). -/
theorem returnFromInterrupt_eq (s : State) :
    returnFromInterrupt s =
      { s with iq := false, sp := s.sp + 1 + 1, regs := { s.regs with a := memRead s.sp s },
               pc := memRead (s.sp + 1) s } := rfl

/-- The interrupt check with delivery on and a handler set enters it with the head of the queue (R239). -/
theorem interruptCheck_deliver {s : State} {m : Word} {q : List Word} (hi : s.iq = false) (hq : s.queue = m :: q)
    (ha : s.ia ≠ 0) : interruptCheck s = enterInterrupt m (setQueue q s) := by
  simp only [interruptCheck, hi, hq]
  rw [if_neg ha]

/-- The interrupt check with delivery on and no handler discards the head of the queue (R240). -/
theorem interruptCheck_discard {s : State} {m : Word} {q : List Word} (hi : s.iq = false) (hq : s.queue = m :: q)
    (ha : s.ia = 0) : interruptCheck s = setQueue q s := by
  simp only [interruptCheck, hi, hq]
  rw [if_pos ha]

@[simp] theorem interruptCheck_config (s : State) : (interruptCheck s).config = s.config := by
  rcases interruptCheck_cases s with h | ⟨m, q, -, -, -, h⟩ | ⟨m, q, -, -, -, h⟩ <;> rw [h] <;> rfl

@[simp] theorem interruptCheck_ia (s : State) : (interruptCheck s).ia = s.ia := by
  rcases interruptCheck_cases s with h | ⟨m, q, -, -, -, h⟩ | ⟨m, q, -, -, -, h⟩ <;> rw [h] <;> rfl

@[simp] theorem interruptCheck_halted (s : State) : (interruptCheck s).halted = s.halted := by
  rcases interruptCheck_cases s with h | ⟨m, q, -, -, -, h⟩ | ⟨m, q, -, -, -, h⟩ <;> rw [h] <;> rfl

@[simp] theorem interruptCheck_ex (s : State) : (interruptCheck s).ex = s.ex := by
  rcases interruptCheck_cases s with h | ⟨m, q, -, -, -, h⟩ | ⟨m, q, -, -, -, h⟩ <;> rw [h] <;> rfl

@[simp] theorem interruptCheck_tick (s : State) : (interruptCheck s).tick = s.tick := by
  rcases interruptCheck_cases s with h | ⟨m, q, -, -, -, h⟩ | ⟨m, q, -, -, -, h⟩ <;> rw [h] <;> rfl

/-- The interrupt check keeps the invariant (R35). -/
theorem interruptCheck_inv {s : State} (h : s.Inv) : (interruptCheck s).Inv := by
  obtain ⟨hm, hq, hd⟩ := h
  rcases interruptCheck_cases s with e | ⟨m, q, -, hc, -, e⟩ | ⟨m, q, -, hc, -, e⟩
  · rw [e]; exact ⟨hm, hq, hd⟩
  · rw [e]
    refine ⟨hm, ?_, hd⟩
    rw [hc] at hq
    exact Nat.le_of_succ_le hq
  · rw [e, enterInterrupt_eq]
    refine ⟨wf_writeWord _ _ _ (wf_writeWord _ _ _ hm), ?_, hd⟩
    rw [hc] at hq
    exact Nat.le_of_succ_le hq

/-- The interrupt check does not read `tick`. -/
theorem interruptCheck_charge (k : Nat) (s : State) : interruptCheck (charge k s) = charge k (interruptCheck s) := by
  have hstep : ∀ u : State, interruptCheck u =
      match u.iq, u.queue with
      | false, m :: q => if u.ia = 0 then setQueue q u else enterInterrupt m (setQueue q u)
      | _, _ => u := fun _ => rfl
  cases hi : s.iq with
  | true => simp [hstep, hi]
  | false =>
    cases hq : s.queue with
    | nil => simp [hstep, hi, hq]
    | cons m q =>
      by_cases h : s.ia = 0
      · simp [hstep, hi, hq, h]; rfl
      · have h' : ¬ s.ia = 0#16 := h
        simp [hstep, hi, hq, h']; rfl

theorem boundary_running {s : State} (h : s.halted = none) : boundary s = interruptCheck s := by
  simp [boundary, h]

theorem boundary_halted {s : State} {c : Halt} (h : s.halted = some c) : boundary s = s := by
  simp [boundary, h]

theorem boundary_cases (s : State) : boundary s = s ∨ boundary s = interruptCheck s := by
  unfold boundary
  split
  · exact .inr rfl
  · exact .inl rfl

@[simp] theorem boundary_config (s : State) : (boundary s).config = s.config := by
  rcases boundary_cases s with h | h <;> simp [h]

@[simp] theorem boundary_tick (s : State) : (boundary s).tick = s.tick := by
  rcases boundary_cases s with h | h <;> simp [h]

@[simp] theorem boundary_ia (s : State) : (boundary s).ia = s.ia := by
  rcases boundary_cases s with h | h <;> simp [h]

@[simp] theorem boundary_halted_eq (s : State) : (boundary s).halted = s.halted := by
  rcases boundary_cases s with h | h <;> simp [h]

theorem boundary_inv {s : State} (h : s.Inv) : (boundary s).Inv := by
  rcases boundary_cases s with e | e <;> rw [e]
  · exact h
  · exact interruptCheck_inv h

theorem boundary_charge (k : Nat) (s : State) : boundary (charge k s) = charge k (boundary s) := by
  unfold boundary
  rw [charge_halted]
  split
  · exact interruptCheck_charge k s
  · rfl

/-- What the end of a step answers: a next state comes from a next state of the instruction. -/
theorem atBoundary_eq_next {o : Host.Outcome State Fault Refusal} {t : State} (h : atBoundary o = .next t) :
    ∃ u, o = .next u ∧ t = boundary u := by
  cases o with
  | next u => exact ⟨u, rfl, by simpa [atBoundary] using h.symm⟩
  | fault f => simp [atBoundary] at h
  | refused r => simp [atBoundary] at h

end Sys2Proof.Machine
end

