-- ==== Sys2Proof/Laws/Skip.lean ====
section
/-! SUPPORT. Skipping: what a skip reaches, what it leaves alone, and when it has no end. -/

namespace Sys2Proof.Machine

/-- The state with `k` instructions passed, as the loop of `Skip()` makes it (R179). -/
def passedState (k : Nat) (s : State) : State := charge k (setPc (passed s.mem k s.pc) s)

theorem passed_succ (m : Memory) (k : Nat) (pc : Word) :
    passed m (k + 1) pc = passed m k (pc + BitVec.ofNat 16 (footprint (readWord m pc))) := rfl

/-- Passing `j` instructions and then `k` more is passing `j + k`. -/
theorem passed_add (m : Memory) (j k : Nat) (pc : Word) : passed m (j + k) pc = passed m k (passed m j pc) := by
  induction j generalizing pc with
  | zero => simp [passed]
  | succ j ih => rw [Nat.add_right_comm, passed_succ, ih, passed_succ]

theorem charge_charge (m n : Nat) (s : State) : charge m (charge n s) = charge (n + m) s := by
  simp [charge, BitVec.ofNat_add, BitVec.add_assoc]

theorem skipLoop_last (fuel : Nat) (s : State) (h : isConditional (memRead s.pc s) = false) :
    skipLoop (fuel + 1) s = some (charge 1 (setPc (s.pc + BitVec.ofNat 16 (footprint (memRead s.pc s))) s)) := by
  simp only [skipLoop]
  rw [if_neg (by rw [h]; decide)]

theorem skipLoop_more (fuel : Nat) (s : State) (h : isConditional (memRead s.pc s) = true) :
    skipLoop (fuel + 1) s =
      skipLoop fuel (charge 1 (setPc (s.pc + BitVec.ofNat 16 (footprint (memRead s.pc s))) s)) := by
  simp only [skipLoop]
  rw [if_pos h]

theorem passedState_succ (k : Nat) (s : State) :
    passedState (k + 1) s =
      passedState k (charge 1 (setPc (s.pc + BitVec.ofNat 16 (footprint (memRead s.pc s))) s)) := by
  simp [passedState, charge, setPc, passed, memRead, BitVec.ofNat_add, BitVec.add_assoc,
    BitVec.add_comm (BitVec.ofNat 16 k)]

theorem chainAt_tail {m : Memory} {pc : Word} {k : Nat} (h : ChainAt m pc (k + 1)) :
    ChainAt m (pc + BitVec.ofNat 16 (footprint (readWord m pc))) k := by
  refine ⟨fun j hj => ?_, ?_⟩
  · have := h.1 (j + 1) (by omega)
    rwa [passed_succ] at this
  · have := h.2
    rwa [passed_succ] at this

/-- The loop ends after `k + 1` instructions where `k` conditional ones and one other stand at `pc` (R180). -/
theorem skipLoop_chain (k fuel : Nat) (s : State) (hk : k < fuel) (h : ChainAt s.mem s.pc k) :
    skipLoop fuel s = some (passedState (k + 1) s) := by
  induction k generalizing fuel s with
  | zero =>
    obtain ⟨f, rfl⟩ : ∃ f, fuel = f + 1 := ⟨fuel - 1, by omega⟩
    rw [skipLoop_last f s h.2]
    rfl
  | succ k ih =>
    obtain ⟨f, rfl⟩ : ∃ f, fuel = f + 1 := ⟨fuel - 1, by omega⟩
    rw [skipLoop_more f s (h.1 0 (by omega)), passedState_succ]
    exact ih f _ (by omega) (chainAt_tail h)

/-- The loop has no result where only conditional instructions are met. -/
theorem skipLoop_eq_none (fuel : Nat) (s : State) (h : ∀ j < fuel, isConditional (readWord s.mem (passed s.mem j s.pc)) = true) :
    skipLoop fuel s = none := by
  induction fuel generalizing s with
  | zero => rfl
  | succ f ih =>
    rw [skipLoop_more f s (h 0 (by omega))]
    refine ih _ (fun j hj => ?_)
    have := h (j + 1) (by omega)
    rwa [passed_succ] at this

/-- Either some chain of fewer than `fuel` conditional instructions ends, or all of the first `fuel` are conditional. -/
theorem chain_or_all (m : Memory) (pc : Word) (fuel : Nat) :
    (∃ k < fuel, ChainAt m pc k) ∨ ∀ j < fuel, isConditional (readWord m (passed m j pc)) = true := by
  induction fuel with
  | zero => exact .inr (fun j hj => absurd hj (by omega))
  | succ f ih =>
    rcases ih with ⟨k, hk, hc⟩ | hall
    · exact .inl ⟨k, by omega, hc⟩
    · by_cases hf : isConditional (readWord m (passed m f pc)) = true
      · refine .inr (fun j hj => ?_)
        rcases Nat.lt_succ_iff_lt_or_eq.mp hj with h | h
        · exact hall j h
        · rw [h]; exact hf
      · exact .inl ⟨f, by omega, hall, by simpa using hf⟩

/-- After 65536 conditional instructions the walk has come back to an address it has passed, so that it meets only
conditional instructions for ever (R180, U8). -/
theorem endless_of_all (m : Memory) (pc : Word)
    (h : ∀ j < 65536, isConditional (readWord m (passed m j pc)) = true) : EndlessAt m pc := by
  obtain ⟨i, j, hij, hj, e⟩ : ∃ i j, i < j ∧ j ≤ 65536 ∧ passed m i pc = passed m j pc := by
    by_contra hno
    push Not at hno
    have hinj : Function.Injective (fun i : Fin 65537 => (passed m i.val pc).toFin) := by
      intro x y hxy
      have hxy' : passed m x.val pc = passed m y.val pc := BitVec.toFin_inj.mp hxy
      rcases Nat.lt_trichotomy x.val y.val with hlt | heq | hgt
      · exact absurd hxy' (hno _ _ hlt (by omega))
      · exact Fin.ext heq
      · exact absurd hxy'.symm (hno _ _ hgt (by omega))
    have hcard := Fintype.card_le_of_injective _ hinj
    simp at hcard
  intro k
  induction k using Nat.strong_induction_on with
  | _ k ih =>
    by_cases hk : k < 65536
    · exact h k hk
    · have hkj : k = j + (k - j) := by omega
      rw [hkj, passed_add, ← e, ← passed_add]
      exact ih (i + (k - j)) (by omega)

/-- Everything a skip can do: pass a chain of conditional instructions and one instruction more, or never end. -/
theorem skip_cases (s : State) :
    (∃ k < 65536, ChainAt s.mem s.pc k ∧ skip s = some (passedState (k + 1) s)) ∨
    (EndlessAt s.mem s.pc ∧ skip s = none) := by
  rcases chain_or_all s.mem s.pc 65536 with ⟨k, hk, hc⟩ | hall
  · exact .inl ⟨k, hk, hc, skipLoop_chain k 65536 s hk hc⟩
  · exact .inr ⟨endless_of_all _ _ hall, skipLoop_eq_none _ _ hall⟩

/-- A chain has one length (R180). -/
theorem chainAt_unique {m : Memory} {pc : Word} {j k : Nat} (hj : ChainAt m pc j) (hk : ChainAt m pc k) : j = k := by
  rcases Nat.lt_trichotomy j k with h | h | h
  · exact absurd (hk.1 j h) (by rw [hj.2]; decide)
  · exact h
  · exact absurd (hj.1 k h) (by rw [hk.2]; decide)

/-- A chain and an endless run of conditional instructions exclude each other. -/
theorem not_endless_of_chain {m : Memory} {pc : Word} {k : Nat} (h : ChainAt m pc k) : ¬ EndlessAt m pc := fun he => by
  have := he k
  rw [h.2] at this
  exact absurd this (by decide)

/-- The skip of a chain. -/
theorem skip_of_chain {s : State} {k : Nat} (hk : k < 65536) (h : ChainAt s.mem s.pc k) :
    skip s = some (passedState (k + 1) s) := skipLoop_chain k 65536 s hk h

theorem skipLoop_charge (fuel k : Nat) (s : State) :
    skipLoop fuel (charge k s) = (skipLoop fuel s).map (charge k) := by
  induction fuel generalizing s with
  | zero => rfl
  | succ f ih =>
    have hs : charge 1 (setPc ((charge k s).pc + BitVec.ofNat 16 (footprint (memRead (charge k s).pc (charge k s)))) (charge k s))
        = charge k (charge 1 (setPc (s.pc + BitVec.ofNat 16 (footprint (memRead s.pc s))) s)) := by
      simp [charge, setPc, memRead, BitVec.add_assoc, BitVec.add_comm (BitVec.ofNat 16 k)]
    simp only [skipLoop]
    rw [hs, ih]
    have hr : memRead (charge k s).pc (charge k s) = memRead s.pc s := rfl
    rw [hr]
    split <;> rfl

/-- A skip does not read `tick`. -/
theorem skip_charge (k : Nat) (s : State) : skip (charge k s) = (skip s).map (charge k) := skipLoop_charge _ k s

/-- Everything `runConditional` can do (R170). -/
theorem runConditional_cases (i : Instr) (b a : Operand) (cond : Word → Word → Bool) (s : State) :
    let t := charge (extraCycles s.config i) (sample b a s).st
    let c := cond (sample b a s).vb (sample b a s).va
    (c = true ∧ runConditional i b a cond s = .next t) ∨
    (c = false ∧ ∃ k < 65536, ChainAt s.mem s.pc k ∧ runConditional i b a cond s = .next (passedState (k + 1) t)) ∨
    (c = false ∧ EndlessAt s.mem s.pc ∧ runConditional i b a cond s = .fault .skipNeverEnds) := by
  intro t c
  have hm : t.mem = s.mem := by simp [t, sample_st]
  have hp : t.pc = s.pc := by simp [t, sample_st]
  have hrun : runConditional i b a cond s =
      if c = true then .next t else
        match skip t with
        | some u => .next u
        | none => .fault .skipNeverEnds := rfl
  by_cases hc : c = true
  · exact .inl ⟨hc, by rw [hrun, if_pos hc]⟩
  · have hc' : c = false := by simpa using hc
    rcases skip_cases t with ⟨k, hk, hch, hs⟩ | ⟨he, hs⟩
    · refine .inr (.inl ⟨hc', k, hk, ?_, by rw [hrun, if_neg hc, hs]⟩)
      rwa [hm, hp] at hch
    · refine .inr (.inr ⟨hc', ?_, by rw [hrun, if_neg hc, hs]⟩)
      rwa [hm, hp] at he

end Sys2Proof.Machine
end

