-- ==== Sys2Proof/Laws/Exec.lean ====
section
/-! SUPPORT. What `exec` answers, family by family: every arm reduced to the template of its family. -/

namespace Sys2Proof.Machine

/-- STI and STD change `I` and `J` only, after their store (R132, R133). -/
theorem stepIJ_eq (d : Word) (s : State) :
    stepIJ d s = { s with regs := { s.regs with i := s.regs.i + d, j := s.regs.j + d } } := rfl

@[simp] theorem stepIJ_pc (d : Word) (s : State) : (stepIJ d s).pc = s.pc := rfl
@[simp] theorem stepIJ_sp (d : Word) (s : State) : (stepIJ d s).sp = s.sp := rfl
@[simp] theorem stepIJ_ex (d : Word) (s : State) : (stepIJ d s).ex = s.ex := rfl
@[simp] theorem stepIJ_ia (d : Word) (s : State) : (stepIJ d s).ia = s.ia := rfl
@[simp] theorem stepIJ_tick (d : Word) (s : State) : (stepIJ d s).tick = s.tick := rfl
@[simp] theorem stepIJ_iq (d : Word) (s : State) : (stepIJ d s).iq = s.iq := rfl
@[simp] theorem stepIJ_queue (d : Word) (s : State) : (stepIJ d s).queue = s.queue := rfl
@[simp] theorem stepIJ_halted (d : Word) (s : State) : (stepIJ d s).halted = s.halted := rfl
@[simp] theorem stepIJ_mem (d : Word) (s : State) : (stepIJ d s).mem = s.mem := rfl
@[simp] theorem stepIJ_config (d : Word) (s : State) : (stepIJ d s).config = s.config := rfl
@[simp] theorem stepIJ_devCalls (d : Word) (s : State) : (stepIJ d s).devCalls = s.devCalls := rfl

/-- Every instruction of the arithmetic and logic family is the template of R120 with its own operation. -/
theorem exec_alu {b a : Operand} {i : Instr} (hi : i ∈ aluInstrs b a) (s : State) :
    ∃ f, exec i s = .next (runAlu i b a f s) := by
  simp only [aluInstrs, List.mem_cons, List.not_mem_nil, or_false] at hi
  rcases hi with rfl | rfl | rfl | rfl | rfl | rfl | rfl | rfl | rfl | rfl | rfl | rfl | rfl | rfl | rfl | rfl | rfl <;>
    exact ⟨_, rfl⟩

/-- Every conditional instruction is the template of R170 with its own condition (R171..R178). -/
theorem exec_conditional {b a : Operand} {vb va : Word} {c : Instr × Bool} (hc : c ∈ conditionals b a vb va) :
    ∃ cond, cond vb va = c.2 ∧ (∀ s, exec c.1 s = runConditional c.1 b a cond s) ∧ ∀ g, extraCycles g c.1 = 1 := by
  simp only [conditionals, List.mem_cons, List.not_mem_nil, or_false] at hc
  rcases hc with rfl | rfl | rfl | rfl | rfl | rfl | rfl | rfl
  · exact ⟨condIfb, by simp [condIfb, bne, BEq.beq], fun _ => rfl, fun _ => rfl⟩
  · exact ⟨condIfc, by simp [condIfc, BEq.beq], fun _ => rfl, fun _ => rfl⟩
  · exact ⟨condIfe, by simp [condIfe, BEq.beq], fun _ => rfl, fun _ => rfl⟩
  · exact ⟨condIfn, by simp [condIfn, bne, BEq.beq], fun _ => rfl, fun _ => rfl⟩
  · exact ⟨condIfg, by simp [condIfg, uint, BitVec.ult], fun _ => rfl, fun _ => rfl⟩
  · exact ⟨condIfa, by simp [condIfa, s16, BitVec.slt], fun _ => rfl, fun _ => rfl⟩
  · exact ⟨condIfl, by simp [condIfl, uint, BitVec.ult], fun _ => rfl, fun _ => rfl⟩
  · exact ⟨condIfu, rfl, fun _ => rfl, fun _ => rfl⟩

/-- The eight conditional instructions on two operands. -/
def conditionalInstrs (b a : Operand) : List Instr :=
  [.ifb b a, .ifc b a, .ife b a, .ifn b a, .ifg b a, .ifa b a, .ifl b a, .ifu b a]

/-- The nine extended instructions on one operand. -/
def extendedInstrs (a : Operand) : List Instr :=
  [.jsr a, .int a, .iag a, .ias a, .rfi a, .iaq a, .hwn a, .hwq a, .hwi a]

/-- STI and STD are SET and a move of `I` and `J` (R132, R133). -/
theorem exec_stiStd {b a : Operand} {i : Instr} (hi : i = .sti b a ∨ i = .std b a) :
    ∃ d, ∀ s, exec i s = .next (stepIJ d (runAlu i b a aluSet s)) := by
  rcases hi with rfl | rfl <;> exact ⟨_, fun _ => rfl⟩

/-- Every instruction belongs to one of four families. -/
theorem instr_families (i : Instr) :
    (∃ b a, i ∈ aluInstrs b a) ∨ (∃ b a, i = .sti b a ∨ i = .std b a) ∨ (∃ b a, i ∈ conditionalInstrs b a) ∨
    (∃ a, i ∈ extendedInstrs a) := by
  cases i <;> simp [aluInstrs, conditionalInstrs, extendedInstrs]

/-- A conditional instruction is the template of R170. -/
theorem exec_conditionalInstrs {b a : Operand} {i : Instr} (hi : i ∈ conditionalInstrs b a) (s : State) :
    ∃ cond, exec i s = runConditional i b a cond s := by
  simp only [conditionalInstrs, List.mem_cons, List.not_mem_nil, or_false] at hi
  rcases hi with rfl | rfl | rfl | rfl | rfl | rfl | rfl | rfl <;> exact ⟨_, rfl⟩

/-- An extended instruction always has a next state, by the template of R208. -/
theorem exec_extended {a : Operand} {i : Instr} (hi : i ∈ extendedInstrs a) (s : State) :
    ∃ act, exec i s = .next (runExtended i a act s) := by
  simp only [extendedInstrs, List.mem_cons, List.not_mem_nil, or_false] at hi
  rcases hi with rfl | rfl | rfl | rfl | rfl | rfl | rfl | rfl | rfl <;> exact ⟨_, rfl⟩

/-- `exec` answers a next state, or it is a conditional instruction whose skip never ends. -/
theorem exec_answers (i : Instr) (s : State) :
    (∃ t, exec i s = .next t) ∨
    (exec i s = .fault .skipNeverEnds ∧ (∃ b a, i ∈ conditionalInstrs b a) ∧ EndlessAt s.mem s.pc) := by
  rcases instr_families i with ⟨b, a, h⟩ | ⟨b, a, h⟩ | ⟨b, a, h⟩ | ⟨a, h⟩
  · obtain ⟨f, e⟩ := exec_alu h s
    exact .inl ⟨_, e⟩
  · obtain ⟨d, e⟩ := exec_stiStd h
    exact .inl ⟨_, e s⟩
  · obtain ⟨cond, e⟩ := exec_conditionalInstrs h s
    rcases runConditional_cases i b a cond s with ⟨-, e'⟩ | ⟨-, k, -, -, e'⟩ | ⟨-, he, e'⟩
    · exact .inl ⟨_, e.trans e'⟩
    · exact .inl ⟨_, e.trans e'⟩
    · exact .inr ⟨e.trans e', ⟨b, a, h⟩, he⟩
  · obtain ⟨f, e⟩ := exec_extended h s
    exact .inl ⟨_, e⟩

/-- The state an extended instruction acts on: its operand resolved, its cycles charged. -/
theorem runExtended_eq (i : Instr) (a : Operand) (act : Loc → Word → State → State) (s : State) :
    runExtended i a act s =
      act (sampleA a s).la (sampleA a s).va (charge (extraCycles s.config i) (setSp (s.sp + spDelta .a a) s)) := by
  simp only [runExtended, sampleA_st]

@[simp] theorem passedState_regs (k : Nat) (s : State) : (passedState k s).regs = s.regs := rfl
@[simp] theorem passedState_mem (k : Nat) (s : State) : (passedState k s).mem = s.mem := rfl
@[simp] theorem passedState_sp (k : Nat) (s : State) : (passedState k s).sp = s.sp := rfl
@[simp] theorem passedState_ex (k : Nat) (s : State) : (passedState k s).ex = s.ex := rfl
@[simp] theorem passedState_ia (k : Nat) (s : State) : (passedState k s).ia = s.ia := rfl
@[simp] theorem passedState_iq (k : Nat) (s : State) : (passedState k s).iq = s.iq := rfl
@[simp] theorem passedState_queue (k : Nat) (s : State) : (passedState k s).queue = s.queue := rfl
@[simp] theorem passedState_halted (k : Nat) (s : State) : (passedState k s).halted = s.halted := rfl
@[simp] theorem passedState_config (k : Nat) (s : State) : (passedState k s).config = s.config := rfl
@[simp] theorem passedState_devCalls (k : Nat) (s : State) : (passedState k s).devCalls = s.devCalls := rfl

/-- Everything a conditional instruction leaves alone (R170). -/
theorem runConditional_frame {i : Instr} {b a : Operand} {cond : Word → Word → Bool} {s t : State}
    (h : runConditional i b a cond s = .next t) :
    t.regs = s.regs ∧ t.mem = s.mem ∧ t.ex = s.ex ∧ t.sp = s.sp + spDelta .a a + spDelta .b b ∧ ControlFrame s t := by
  rcases runConditional_cases i b a cond s with ⟨-, e⟩ | ⟨-, k, -, -, e⟩ | ⟨-, -, e⟩ <;> rw [e] at h
  · cases h; simp [sample_st, ControlFrame]
  · cases h; simp [sample_st, ControlFrame]
  · cases h

/-! ### What no instruction changes -/

@[simp] theorem enqueue_config (m : Word) (s : State) : (enqueue m s).config = s.config := by
  rcases enqueue_cases m s with ⟨-, e⟩ | ⟨-, e⟩ <;> rw [e] <;> rfl

@[simp] theorem enqueue_ia (m : Word) (s : State) : (enqueue m s).ia = s.ia := by
  rcases enqueue_cases m s with ⟨-, e⟩ | ⟨-, e⟩ <;> rw [e] <;> rfl

/-- `Enqueue` keeps the invariant (R29, R238). -/
theorem enqueue_inv (m : Word) {s : State} (h : s.Inv) : (enqueue m s).Inv := by
  rcases enqueue_cases m s with ⟨hl, e⟩ | ⟨-, e⟩ <;> rw [e]
  · exact ⟨h.1, by simp; omega, h.2.2⟩
  · exact h

/-- A stack pointer move and charged cycles keep the invariant. -/
theorem resolved_inv (k : Nat) (v : Word) {s : State} (h : s.Inv) : (charge k (setSp v s)).Inv := h

theorem store_inv (l : Loc) (v : Word) {s : State} (h : s.Inv) : (store l v s).Inv := by
  refine ⟨store_keeps_wf l v s h.1, ?_, ?_⟩
  · rw [store_queue]; exact h.2.1
  · simp only [deviceCount, store_config]; exact h.2.2

/-- Every extended instruction keeps the invariant. -/
theorem exec_extended_inv {a : Operand} {i : Instr} (hi : i ∈ extendedInstrs a) {s t : State} (h : s.Inv)
    (he : exec i s = .next t) : t.Inv := by
  simp only [extendedInstrs, List.mem_cons, List.not_mem_nil, or_false] at hi
  rcases hi with rfl | rfl | rfl | rfl | rfl | rfl | rfl | rfl | rfl <;> cases he <;> rw [runExtended_eq]
  · exact ⟨wf_writeWord _ _ _ h.1, h.2⟩
  · exact enqueue_inv _ (resolved_inv _ _ h)
  · exact store_inv _ _ (resolved_inv _ _ h)
  · exact h
  · exact h
  · exact h
  · exact store_inv _ _ (resolved_inv _ _ h)
  · exact h
  · split
    · exact ⟨wf_writeAll _ _ h.1, h.2⟩
    · exact h

/-- Every instruction keeps the invariant (R35). -/
theorem exec_inv {i : Instr} {s t : State} (h : s.Inv) (he : exec i s = .next t) : t.Inv := by
  have halu : ∀ (j : Instr) (b a : Operand) (f : Word → Word → AluOut), (runAlu j b a f s).Inv := fun j b a f => by
    obtain ⟨-, -, hc, -, -, -, hw⟩ := runAlu_frame j b a f s
    refine ⟨hw h.1, ?_, ?_⟩
    · rw [hc.2.2.1]; exact h.2.1
    · simp only [deviceCount, hc.2.2.2.2.1]; exact h.2.2
  rcases instr_families i with ⟨b, a, hi⟩ | ⟨b, a, hi⟩ | ⟨b, a, hi⟩ | ⟨a, hi⟩
  · obtain ⟨f, e⟩ := exec_alu hi s
    rw [e] at he
    cases he
    exact halu _ _ _ _
  · obtain ⟨d, e⟩ := exec_stiStd hi
    rw [e] at he
    cases he
    simpa [State.Inv, deviceCount] using halu i b a aluSet
  · obtain ⟨cond, e⟩ := exec_conditionalInstrs hi s
    rw [e] at he
    obtain ⟨-, hm, -, -, hc⟩ := runConditional_frame he
    refine ⟨by rw [hm]; exact h.1, ?_, ?_⟩
    · rw [hc.2.2.1]; exact h.2.1
    · simp only [deviceCount, hc.2.2.2.2.1]; exact h.2.2
  · exact exec_extended_inv hi h he

/-- No instruction writes the parameters (R33). -/
theorem exec_config {i : Instr} {s t : State} (he : exec i s = .next t) : t.config = s.config := by
  rcases instr_families i with ⟨b, a, hi⟩ | ⟨b, a, hi⟩ | ⟨b, a, hi⟩ | ⟨a, hi⟩
  · obtain ⟨f, e⟩ := exec_alu hi s
    rw [e] at he
    cases he
    exact (runAlu_frame i b a f s).2.2.1.2.2.2.2.1
  · obtain ⟨d, e⟩ := exec_stiStd hi
    rw [e] at he
    cases he
    simpa using (runAlu_frame i b a aluSet s).2.2.1.2.2.2.2.1
  · obtain ⟨cond, e⟩ := exec_conditionalInstrs hi s
    rw [e] at he
    exact (runConditional_frame he).2.2.2.2.2.2.2.2.1
  · simp only [extendedInstrs, List.mem_cons, List.not_mem_nil, or_false] at hi
    rcases hi with rfl | rfl | rfl | rfl | rfl | rfl | rfl | rfl | rfl <;> cases he <;> rw [runExtended_eq]
    · rfl
    · simp
    · simp
    · rfl
    · rfl
    · rfl
    · simp
    · rfl
    · split <;> rfl

/-- A basic instruction has at most three extra cycles (R277). -/
theorem extraCycles_basic (c : Config) {i : Instr} {o : BitVec 5} {b a : Operand} (h : instrShape i = .basic o b a) :
    extraCycles c i ≤ 3 := by
  cases i <;> cases h <;> simp [extraCycles]

/-- No instruction has more than four extra cycles (R277, log entry 18). -/
theorem extraCycles_le (c : Config) (i : Instr) : extraCycles c i ≤ 4 := by
  have h := c.extraIag.isLt
  have h' := c.extraIas.isLt
  have h'' := c.extraHwn.isLt
  cases i <;> simp only [extraCycles] <;> omega

/-- Everything an instruction does to `tick`: its extra cycles, and one cycle for each instruction that a failed
conditional one skips (R277, R278). -/
theorem exec_tick {i : Instr} {s t : State} (he : exec i s = .next t) :
    t.tick = s.tick + BitVec.ofNat 16 (extraCycles s.config i) ∨
    ((∃ b a, i ∈ conditionalInstrs b a) ∧
      ∃ k, ChainAt s.mem s.pc k ∧ t.tick = s.tick + BitVec.ofNat 16 (extraCycles s.config i + (k + 1))) := by
  rcases instr_families i with ⟨b, a, hi⟩ | ⟨b, a, hi⟩ | ⟨b, a, hi⟩ | ⟨a, hi⟩
  · obtain ⟨f, e⟩ := exec_alu hi s
    rw [e] at he
    cases he
    exact .inl (runAlu_frame i b a f s).2.2.2.2.2.1
  · obtain ⟨d, e⟩ := exec_stiStd hi
    rw [e] at he
    cases he
    exact .inl (runAlu_frame i b a aluSet s).2.2.2.2.2.1
  · obtain ⟨cond, e⟩ := exec_conditionalInstrs hi s
    rw [e] at he
    rcases runConditional_cases i b a cond s with ⟨-, h⟩ | ⟨-, k, -, hk, h⟩ | ⟨-, -, h⟩ <;> rw [h] at he <;> cases he
    · exact .inl (by simp [sample_st])
    · refine .inr ⟨⟨b, a, hi⟩, k, hk, ?_⟩
      simp [passedState, sample_st, BitVec.ofNat_add, BitVec.add_assoc]
  · refine .inl ?_
    simp only [extendedInstrs, List.mem_cons, List.not_mem_nil, or_false] at hi
    rcases hi with rfl | rfl | rfl | rfl | rfl | rfl | rfl | rfl | rfl <;> cases he <;> rw [runExtended_eq]
    · rfl
    · unfold enqueue; split <;> rfl
    · rw [store_tick]; rfl
    · rfl
    · rfl
    · rfl
    · rw [store_tick]; rfl
    · rfl
    · split <;> rfl

/-- `IA` is written by IAS, and by a device that HWI calls, only (R25, R309). -/
theorem exec_ia {i : Instr} {s t : State} (he : exec i s = .next t) :
    t.ia = s.ia ∨ ∃ a, i = .ias a ∨ i = .hwi a := by
  rcases instr_families i with ⟨b, a, hi⟩ | ⟨b, a, hi⟩ | ⟨b, a, hi⟩ | ⟨a, hi⟩
  · obtain ⟨f, e⟩ := exec_alu hi s
    rw [e] at he
    cases he
    exact .inl (runAlu_frame i b a f s).2.2.1.1
  · obtain ⟨d, e⟩ := exec_stiStd hi
    rw [e] at he
    cases he
    left; simpa using (runAlu_frame i b a aluSet s).2.2.1.1
  · obtain ⟨cond, e⟩ := exec_conditionalInstrs hi s
    rw [e] at he
    exact .inl (runConditional_frame he).2.2.2.2.1
  · simp only [extendedInstrs, List.mem_cons, List.not_mem_nil, or_false] at hi
    rcases hi with rfl | rfl | rfl | rfl | rfl | rfl | rfl | rfl | rfl <;> cases he <;> rw [runExtended_eq]
    · exact .inl rfl
    · exact .inl (by simp)
    · exact .inl (by simp)
    · exact .inr ⟨a, .inl rfl⟩
    · exact .inl rfl
    · exact .inl rfl
    · exact .inl (by simp)
    · exact .inl rfl
    · exact .inr ⟨a, .inr rfl⟩

/-- Only INT on a full queue halts the core (R233). -/
theorem exec_halted {i : Instr} {s t : State} (he : exec i s = .next t) :
    t.halted = s.halted ∨
    ∃ a m, i = .int a ∧ 256 ≤ s.queue.length ∧ t.halted = some (.interruptQueueOverflow m) := by
  rcases instr_families i with ⟨b, a, hi⟩ | ⟨b, a, hi⟩ | ⟨b, a, hi⟩ | ⟨a, hi⟩
  · obtain ⟨f, e⟩ := exec_alu hi s
    rw [e] at he
    cases he
    exact .inl (runAlu_frame i b a f s).2.2.1.2.2.2.1
  · obtain ⟨d, e⟩ := exec_stiStd hi
    rw [e] at he
    cases he
    left; simpa using (runAlu_frame i b a aluSet s).2.2.1.2.2.2.1
  · obtain ⟨cond, e⟩ := exec_conditionalInstrs hi s
    rw [e] at he
    exact .inl (runConditional_frame he).2.2.2.2.2.2.2.1
  · simp only [extendedInstrs, List.mem_cons, List.not_mem_nil, or_false] at hi
    rcases hi with rfl | rfl | rfl | rfl | rfl | rfl | rfl | rfl | rfl <;> cases he <;> rw [runExtended_eq]
    · exact .inl rfl
    · rcases enqueue_cases (sampleA a s).va (charge (extraCycles s.config (.int a)) (setSp (s.sp + spDelta .a a) s))
        with ⟨-, e⟩ | ⟨hl, e⟩
      · exact .inl (by rw [e]; rfl)
      · exact .inr ⟨a, _, rfl, hl, by rw [e]; rfl⟩
    · exact .inl (by simp)
    · exact .inl rfl
    · exact .inl rfl
    · exact .inl rfl
    · exact .inl (by simp)
    · exact .inl rfl
    · exact .inl (by split <;> rfl)

end Sys2Proof.Machine
end

