-- ==== Sys2Proof/Laws/Flags.lean ====
section
/-! SUPPORT. The exact integers of the arithmetic rules against the operations of `BitVec` and `Int`. -/

namespace Sys2Proof.Machine

/-- `u16` is determined by its argument modulo 2^16 (R6). -/
theorem u16_eq_of_emod {v : Int} {w : Word} (h : v % 65536 = w.toNat) : u16 v = w := by
  apply BitVec.eq_of_toNat_eq
  unfold u16
  rw [BitVec.toNat_ofInt]
  simp
  omega

theorem toNat_u16 (v : Int) : ((u16 v).toNat : Int) = v % 65536 := by
  unfold u16
  rw [BitVec.toNat_ofInt]
  simp
  omega

/-- `u16` of a bit vector's signed reading is its low word. -/
theorem u16_toInt (x : BitVec 32) : u16 x.toInt = x.setWidth 16 := by
  apply u16_eq_of_emod
  rw [BitVec.toInt_eq_toNat_bmod, BitVec.toNat_setWidth, Int.bmod_def]
  split <;> omega

theorem shiftRight_16 (v : Int) : shiftRight v 16 = v / 65536 := by
  unfold shiftRight
  norm_num

theorem shiftLeft_16 (v : Int) : shiftLeft v 16 = v * 65536 := by
  unfold shiftLeft
  norm_num

/-- The high and the low word of an exact integer are the halves of its 32-bit value. -/
theorem halves_eq {p : BitVec 32} {v : Int} (h : v % 4294967296 = p.toNat) : u16 (v / 65536) ++ u16 v = p := by
  apply BitVec.eq_of_toNat_eq
  have h1 := toNat_u16 (v / 65536)
  have h2 := toNat_u16 v
  have hp := p.isLt
  rw [BitVec.toNat_append, Nat.shiftLeft_eq, ← Nat.mul_comm (2 ^ 16),
    ← Nat.two_pow_add_eq_or_of_lt (u16 v).isLt]
  omega

/-- `tdiv` of R6 is the quotient of integers rounded toward zero. -/
theorem truncDiv_eq (n d : Int) : truncDiv n d = n.tdiv d := by
  rw [← Int.sign_mul_natAbs (n.tdiv d), Int.sign_tdiv, Int.natAbs_tdiv]
  unfold truncDiv
  split
  · next h =>
    have h0 : n.natAbs / d.natAbs = 0 := Nat.div_eq_of_lt h
    rw [h0]
    simp
  · rfl

/-- `trem` of R6 is the remainder with the sign of the dividend. -/
theorem truncRem_eq (n d : Int) : truncRem n d = n.tmod d := by
  rw [truncRem, truncDiv_eq, Int.tmod_def]

/-! ### What each operation computes, in the operations of `BitVec` -/

theorem u16_toInt_word (x : Word) : u16 x.toInt = x := BitVec.ofInt_toInt

/-- ADD (R122). -/
theorem aluAdd_eq (vb va : Word) :
    aluAdd vb va = ⟨vb + va, some (if BitVec.uaddOverflow vb va then 1 else 0)⟩ := by
  have h : ((vb.toNat : Int) + va.toNat > 0xFFFF) ↔ BitVec.uaddOverflow vb va = true := by
    simp [BitVec.uaddOverflow]
    omega
  simp only [aluAdd, uint, h, AluOut.mk.injEq, and_true]
  apply u16_eq_of_emod
  rw [BitVec.toNat_add]
  omega

/-- SUB (R123). -/
theorem aluSub_eq (vb va : Word) : aluSub vb va = ⟨vb - va, some (if vb.ult va then 0xFFFF else 0)⟩ := by
  have h : ((vb.toNat : Int) - va.toNat < 0) ↔ vb.ult va = true := by simp [BitVec.ult]
  have ha := va.isLt
  simp only [aluSub, uint, h, AluOut.mk.injEq, and_true]
  apply u16_eq_of_emod
  rw [BitVec.toNat_sub]
  omega

/-- DIV (R126). -/
theorem aluDiv_eq (vb va : Word) :
    aluDiv vb va = ⟨if va = 0 then 0 else vb / va,
      some (if va = 0 then 0 else ((vb ++ 0#16) / va.setWidth 32).setWidth 16)⟩ := by
  unfold aluDiv
  by_cases h : va = 0
  · rw [if_pos h, if_pos h, if_pos h]
  · rw [if_neg h, if_neg h, if_neg h, AluOut.mk.injEq, Option.some.injEq]
    have ha := va.isLt
    constructor
    · apply u16_eq_of_emod
      have hb := vb.isLt
      have hq := Nat.div_le_self vb.toNat va.toNat
      rw [BitVec.toNat_udiv, uint, uint, show (vb.toNat : Int) / va.toNat = ((vb.toNat / va.toNat : Nat) : Int) by norm_cast]
      generalize vb.toNat / va.toNat = q at *
      omega
    · rw [shiftLeft_16]
      apply u16_eq_of_emod
      rw [BitVec.toNat_setWidth, BitVec.toNat_udiv, BitVec.toNat_append, BitVec.toNat_setWidth, Nat.shiftLeft_eq]
      unfold uint
      norm_cast
      simp
      rw [Nat.mod_eq_of_lt (b := 4294967296) (by omega)]

/-- MOD (R128). -/
theorem aluMod_eq (vb va : Word) : aluMod vb va = ⟨if va = 0 then 0 else vb % va, none⟩ := by
  unfold aluMod
  by_cases h : va = 0
  · rw [if_pos h, if_pos h]
  · rw [if_neg h, if_neg h, AluOut.mk.injEq]
    refine ⟨u16_eq_of_emod ?_, rfl⟩
    have hb := vb.isLt
    have hq := Nat.mod_le vb.toNat va.toNat
    rw [BitVec.toNat_umod, uint, uint,
      show (vb.toNat : Int) % va.toNat = ((vb.toNat % va.toNat : Nat) : Int) from (Int.natCast_mod _ _).symm]
    generalize vb.toNat % va.toNat = q at *
    omega

/-- DVI (R127). -/
theorem aluDvi_eq (vb va : Word) :
    aluDvi vb va = ⟨if va = 0 then 0 else vb.sdiv va,
      some (if va = 0 then 0 else ((vb ++ 0#16).sdiv (va.signExtend 32)).setWidth 16)⟩ := by
  unfold aluDvi
  by_cases h : va = 0
  · rw [if_pos h, if_pos h, if_pos h]
  · rw [if_neg h, if_neg h, if_neg h, AluOut.mk.injEq, Option.some.injEq]
    constructor
    · rw [truncDiv_eq, ← u16_toInt_word (vb.sdiv va), BitVec.toInt_sdiv]
      unfold s16
      generalize vb.toInt.tdiv va.toInt = z
      apply u16_eq_of_emod
      rw [toNat_u16, Int.bmod_def]
      split <;> omega
    · rw [truncDiv_eq, shiftLeft_16, ← u16_toInt, BitVec.toInt_sdiv, BitVec.toInt_append]
      simp only [BitVec.toInt_signExtend_of_le (show 16 ≤ 32 by omega)]
      unfold s16
      apply u16_eq_of_emod
      rw [toNat_u16]
      simp
      rw [Int.mul_comm]
      generalize (65536 * vb.toInt).tdiv va.toInt = z
      rw [Int.bmod_def]
      split <;> omega

/-- MDI (R129). -/
theorem aluMdi_eq (vb va : Word) : aluMdi vb va = ⟨if va = 0 then 0 else vb.srem va, none⟩ := by
  unfold aluMdi
  by_cases h : va = 0
  · rw [if_pos h, if_pos h]
  · rw [if_neg h, if_neg h, truncRem_eq, ← u16_toInt_word (vb.srem va), BitVec.toInt_srem]
    rfl

/-- ADX (R130). -/
theorem aluAdx_eq (vb va ex : Word) :
    aluAdx vb va ex = ⟨vb + va + ex, some (if 65536 ≤ vb.toNat + va.toNat + ex.toNat then 1 else 0)⟩ := by
  have h : ((vb.toNat : Int) + va.toNat + ex.toNat > 0xFFFF) ↔ 65536 ≤ vb.toNat + va.toNat + ex.toNat := by omega
  simp only [aluAdx, uint, h, AluOut.mk.injEq, and_true]
  apply u16_eq_of_emod
  rw [BitVec.toNat_add, BitVec.toNat_add]
  omega

/-- SBX with `EX` read unsigned (R131). -/
theorem aluSbx_unsigned (vb va ex : Word) :
    aluSbx false vb va ex = ⟨vb - va + ex, some (if vb.toNat + ex.toNat < va.toNat then 0xFFFF else 0)⟩ := by
  have h : ((vb.toNat : Int) - va.toNat + ex.toNat < 0) ↔ vb.toNat + ex.toNat < va.toNat := by omega
  have ha := va.isLt
  simp only [aluSbx, uint, h, AluOut.mk.injEq, and_true, Bool.false_eq_true, if_false]
  apply u16_eq_of_emod
  rw [BitVec.toNat_add, BitVec.toNat_sub]
  omega

/-- SBX with `EX` read signed (R131, D8). -/
theorem aluSbx_signed (vb va ex : Word) :
    aluSbx true vb va ex = ⟨vb - va + ex, some (if (vb.toNat : Int) + ex.toInt < va.toNat then 0xFFFF else 0)⟩ := by
  have h : ((vb.toNat : Int) - va.toNat + ex.toInt < 0) ↔ (vb.toNat : Int) + ex.toInt < va.toNat := by omega
  have ha := va.isLt
  simp only [aluSbx, uint, s16, h, AluOut.mk.injEq, and_true, if_true]
  apply u16_eq_of_emod
  rw [BitVec.toNat_add, BitVec.toNat_sub, BitVec.toInt_eq_toNat_cond]
  split <;> omega

/-! ### Shifts in 32 bits (R156) -/

theorem toNat_append_zero (v : Word) : (v ++ 0#16).toNat = v.toNat * 65536 := by
  rw [BitVec.toNat_append, Nat.shiftLeft_eq]
  simp

theorem toInt_append_zero (v : Word) : (v ++ 0#16).toInt = v.toInt * 65536 := by
  rw [BitVec.toInt_append]
  simp
  omega

/-- A shift right is the high half of the shift of the value times 2^16. -/
theorem shiftRight_eq_high (v : Int) (n : Nat) : shiftRight v n = shiftRight (shiftLeft v 16) n / 65536 := by
  rw [shiftLeft_16]
  unfold shiftRight
  rw [Int.ediv_ediv_of_nonneg (Int.natCast_nonneg _), Int.mul_comm ((2 ^ n : Nat) : Int),
    ← Int.ediv_ediv_of_nonneg (by omega), Int.mul_ediv_cancel _ (by omega)]

/-- The logical shift right of a word above 16 zero bits (R153). -/
theorem shiftRight_unsigned_emod (v : Word) (n : Nat) :
    shiftRight (shiftLeft (uint v) 16) n % 4294967296 = (((v ++ 0#16) >>> n).toNat : Int) := by
  rw [BitVec.toNat_ushiftRight, toNat_append_zero, shiftLeft_16, Nat.shiftRight_eq_div_pow]
  unfold shiftRight uint
  have hv := v.isLt
  have h := Nat.div_le_self (v.toNat * 65536) (2 ^ n)
  rw [show (v.toNat : Int) * 65536 / ((2 ^ n : Nat) : Int) = ((v.toNat * 65536 / 2 ^ n : Nat) : Int) by push_cast; rfl]
  generalize v.toNat * 65536 / 2 ^ n = q at *
  omega

/-- The arithmetic shift right of a word above 16 zero bits (R154). -/
theorem shiftRight_signed_emod (v : Word) (n : Nat) :
    shiftRight (shiftLeft (s16 v) 16) n % 4294967296 = (((v ++ 0#16).sshiftRight n).toNat : Int) := by
  have h := BitVec.toInt_sshiftRight (x := v ++ 0#16) (n := n)
  rw [toInt_append_zero, Int.shiftRight_eq_div_pow] at h
  unfold shiftRight s16
  rw [shiftLeft_16, show v.toInt * 65536 / ((2 ^ n : Nat) : Int) = ((v ++ 0#16).sshiftRight n).toInt from h.symm]
  have hlt := ((v ++ 0#16).sshiftRight n).isLt
  rw [BitVec.toInt_eq_toNat_cond]
  split <;> omega

end Sys2Proof.Machine
end

