-- ==== Sys2Proof/Laws/Interfaces.lean ====
section
/-! SUPPORT. What a write of the host reaches, and what a run of actions is made of. -/

namespace Sys2Proof.Machine

theorem wf_writeSpan (k : Nat) (vs : List Word) (m : Memory) (h : Memory.wf m = true) :
    Memory.wf (writeSpan k vs m) = true := by
  induction vs generalizing k m with
  | nil => exact h
  | cons v vs ih =>
    unfold writeSpan
    split
    · exact ih _ _ (wf_writeWord _ _ _ h)
    · exact h

/-- Every cell after a write of the host: the word of the data that falls on it, or what it held (R302). -/
theorem readWord_writeSpan (k : Nat) (vs : List Word) (m : Memory) (x : Word) :
    readWord (writeSpan k vs m) x =
      if k ≤ x.toNat then (vs[x.toNat - k]?).getD (readWord m x) else readWord m x := by
  induction vs generalizing k m with
  | nil => simp [writeSpan]
  | cons v vs ih =>
    have hx := x.isLt
    unfold writeSpan
    split
    · next hk =>
      have hn : (BitVec.ofNat 16 k).toNat = k := by
        rw [BitVec.toNat_ofNat]
        omega
      rw [ih, readWord_writeWord]
      by_cases h1 : x.toNat = k
      · rw [if_pos (BitVec.eq_of_toNat_eq (by rw [hn, h1])), if_neg (by omega), if_pos (by omega), h1]
        simp
      · have h3 : x ≠ BitVec.ofNat 16 k := fun e => h1 (by rw [e, hn])
        rw [if_neg h3]
        by_cases h2 : k + 1 ≤ x.toNat
        · rw [if_pos h2, if_pos (by omega), show x.toNat - k = (x.toNat - (k + 1)) + 1 by omega]
          simp
        · rw [if_neg h2, if_neg (by omega)]
    · rw [if_neg (by omega)]

/-- Everything a device's request can do (R310): with room in the queue it appends, whether the core runs or not; a
full queue halts a running core and leaves a halted one as it is. -/
theorem deviceRequest_cases (m : Word) (s : State) :
    (s.queue.length < 256 ∧ deviceRequest m s = { s with queue := s.queue ++ [m] }) ∨
    (256 ≤ s.queue.length ∧ s.halted = none ∧
      deviceRequest m s = { s with halted := some (.interruptQueueOverflow m) }) ∨
    (256 ≤ s.queue.length ∧ s.halted ≠ none ∧ deviceRequest m s = s) := by
  obtain ⟨regs, pc, sp, ex, ia, tick, iq, queue, halted, mem, config, devCalls⟩ := s
  by_cases hq : 256 ≤ queue.length
  · cases halted
    · exact .inr (.inl ⟨hq, rfl, if_pos hq⟩)
    · refine .inr (.inr ⟨hq, by simp, ?_⟩)
      simp [deviceRequest, enqueue, queueCap, hq, raiseFault]
  · refine .inl ⟨by simpa using hq, ?_⟩
    cases halted <;> simp [deviceRequest, enqueue, queueCap, hq, setQueue]

/-- A run that answers a next state went through a next state of its first action (R311). -/
theorem runActions_cons {x : Action} {xs : List Action} {s t : State} (h : runActions (x :: xs) s = .next t) :
    ∃ u, act x s = .next u ∧ runActions xs u = .next t := by
  unfold runActions at h
  split at h
  · next u hu => exact ⟨u, hu, h⟩
  · cases h
  · cases h

end Sys2Proof.Machine
end

