-- ==== Sys2Proof/Laws/PerInstr.lean ====
section
/-! SUPPORT. Per-instruction laws: the words that encode an instruction are as many as its first word tells (R72). -/

namespace Sys2Proof.Laws.EncodeLength

/-- The encoding of a well-formed instruction starts with a word whose footprint is the length of the encoding. -/
def Statement (i : Instr) : Prop :=
  i.wellFormed = true → ∃ w ws, encode i = w :: ws ∧ (encode i).length = footprint w

/-- The law for every instruction of the basic format. -/
theorem of_basic {i : Instr} {o : BitVec 5} {b a : Operand} (hs : instrShape i = .basic o b a) (ho : o ≠ 0)
    (hb : b.fitsB = true) : ∃ w ws, encode i = w :: ws ∧ (encode i).length = footprint w := by
  simp only [encode, hs]
  exact ⟨_, _, rfl, footprint_basic o b a ho hb⟩

/-- The law for every instruction of the extended format. -/
theorem of_extended {i : Instr} {e : BitVec 5} {a : Operand} (hs : instrShape i = .extended e a) :
    ∃ w ws, encode i = w :: ws ∧ (encode i).length = footprint w := by
  simp only [encode, hs]
  exact ⟨_, _, rfl, footprint_extended e a⟩

theorem set (b a : Operand) : Statement (.set b a) := fun h => of_basic rfl (by decide) h

theorem add (b a : Operand) : Statement (.add b a) := fun h => of_basic rfl (by decide) h

theorem sub (b a : Operand) : Statement (.sub b a) := fun h => of_basic rfl (by decide) h

theorem mul (b a : Operand) : Statement (.mul b a) := fun h => of_basic rfl (by decide) h

theorem mli (b a : Operand) : Statement (.mli b a) := fun h => of_basic rfl (by decide) h

theorem div (b a : Operand) : Statement (.div b a) := fun h => of_basic rfl (by decide) h

theorem dvi (b a : Operand) : Statement (.dvi b a) := fun h => of_basic rfl (by decide) h

theorem mod (b a : Operand) : Statement (.mod b a) := fun h => of_basic rfl (by decide) h

theorem mdi (b a : Operand) : Statement (.mdi b a) := fun h => of_basic rfl (by decide) h

theorem and (b a : Operand) : Statement (.and b a) := fun h => of_basic rfl (by decide) h

theorem bor (b a : Operand) : Statement (.bor b a) := fun h => of_basic rfl (by decide) h

theorem xor (b a : Operand) : Statement (.xor b a) := fun h => of_basic rfl (by decide) h

theorem shr (b a : Operand) : Statement (.shr b a) := fun h => of_basic rfl (by decide) h

theorem asr (b a : Operand) : Statement (.asr b a) := fun h => of_basic rfl (by decide) h

theorem shl (b a : Operand) : Statement (.shl b a) := fun h => of_basic rfl (by decide) h

theorem ifb (b a : Operand) : Statement (.ifb b a) := fun h => of_basic rfl (by decide) h

theorem ifc (b a : Operand) : Statement (.ifc b a) := fun h => of_basic rfl (by decide) h

theorem ife (b a : Operand) : Statement (.ife b a) := fun h => of_basic rfl (by decide) h

theorem ifn (b a : Operand) : Statement (.ifn b a) := fun h => of_basic rfl (by decide) h

theorem ifg (b a : Operand) : Statement (.ifg b a) := fun h => of_basic rfl (by decide) h

theorem ifa (b a : Operand) : Statement (.ifa b a) := fun h => of_basic rfl (by decide) h

theorem ifl (b a : Operand) : Statement (.ifl b a) := fun h => of_basic rfl (by decide) h

theorem ifu (b a : Operand) : Statement (.ifu b a) := fun h => of_basic rfl (by decide) h

theorem adx (b a : Operand) : Statement (.adx b a) := fun h => of_basic rfl (by decide) h

theorem sbx (b a : Operand) : Statement (.sbx b a) := fun h => of_basic rfl (by decide) h

theorem sti (b a : Operand) : Statement (.sti b a) := fun h => of_basic rfl (by decide) h

theorem std (b a : Operand) : Statement (.std b a) := fun h => of_basic rfl (by decide) h

theorem jsr (a : Operand) : Statement (.jsr a) := fun _ => of_extended rfl

theorem int (a : Operand) : Statement (.int a) := fun _ => of_extended rfl

theorem iag (a : Operand) : Statement (.iag a) := fun _ => of_extended rfl

theorem ias (a : Operand) : Statement (.ias a) := fun _ => of_extended rfl

theorem rfi (a : Operand) : Statement (.rfi a) := fun _ => of_extended rfl

theorem iaq (a : Operand) : Statement (.iaq a) := fun _ => of_extended rfl

theorem hwn (a : Operand) : Statement (.hwn a) := fun _ => of_extended rfl

theorem hwq (a : Operand) : Statement (.hwq a) := fun _ => of_extended rfl

theorem hwi (a : Operand) : Statement (.hwi a) := fun _ => of_extended rfl

end Sys2Proof.Laws.EncodeLength
end

