-- ==== Sys2Proof/Laws/Step.lean ====
section
/-! SUPPORT. What a step can do: stay halted, run the decoded instruction, or handle an undefined word. -/

namespace Sys2Proof.Machine

theorem step_halted {s : State} {h : Halt} (hs : s.halted = some h) : step s = .next s := by
  simp [step, hs]

theorem step_decoded {s : State} {i : Instr} {n : Nat} (hr : s.halted = none) (hd : decodeAtPc s = .ok (i, n)) :
    step s = atBoundary (exec i (advance n s)) := by
  simp [step, hr, hd]

theorem step_undefined {s : State} {u : Undefined} (hr : s.halted = none) (hd : decodeAtPc s = .error u) :
    step s = .next (boundary (undefinedOpcode s)) := by
  simp [step, hr, hd, atBoundary]

/-- Everything a step can answer with a next state (R80). -/
theorem step_cases {s t : State} (h : step s = .next t) :
    (s.halted ≠ none ∧ t = s) ∨
    (s.halted = none ∧ ∃ i n u, decodeAtPc s = .ok (i, n) ∧ exec i (advance n s) = .next u ∧ t = boundary u) ∨
    (s.halted = none ∧ ∃ e, decodeAtPc s = .error e ∧ t = boundary (undefinedOpcode s)) := by
  cases hh : s.halted with
  | some c =>
    rw [step_halted hh] at h
    cases h
    exact .inl ⟨by simp, rfl⟩
  | none =>
    cases hd : decodeAtPc s with
    | error e =>
      rw [step_undefined hh hd] at h
      cases h
      exact .inr (.inr ⟨rfl, e, rfl, rfl⟩)
    | ok p =>
      obtain ⟨i, n⟩ := p
      rw [step_decoded hh hd] at h
      obtain ⟨u, hu, rfl⟩ := atBoundary_eq_next h
      exact .inr (.inl ⟨rfl, i, n, u, rfl, hu, rfl⟩)

theorem undefinedFault_eq (s : State) :
    undefinedFault s = raiseFault (.undefinedOpcode (memRead s.pc s) s.pc) (advance 1 s) := by
  simp [undefinedFault, fetch_eq]

/-- What the no-operation of an undefined word changes: `pc`, `tick`, `sp` (R235). -/
theorem undefinedNop_eq (s : State) : ∃ v, undefinedNop s = setSp v (advance (footprint (wordAhead 0 s)) s) := by
  unfold undefinedNop
  simp only
  split
  · exact ⟨_, sampleA_st _ _⟩
  · exact ⟨_, sample_st _ _ _⟩

/-- What handling an undefined word can do (R232, R235). -/
theorem undefinedOpcode_cases (s : State) :
    (s.config.undefMode = .fault ∧
      undefinedOpcode s = raiseFault (.undefinedOpcode (memRead s.pc s) s.pc) (advance 1 s)) ∨
    (s.config.undefMode = .nop ∧ ∃ v, undefinedOpcode s = setSp v (advance (footprint (wordAhead 0 s)) s)) := by
  unfold undefinedOpcode
  split
  · next h => exact .inl ⟨h, undefinedFault_eq s⟩
  · next h => exact .inr ⟨h, undefinedNop_eq s⟩

@[simp] theorem undefinedOpcode_config (s : State) : (undefinedOpcode s).config = s.config := by
  rcases undefinedOpcode_cases s with ⟨-, e⟩ | ⟨-, v, e⟩ <;> rw [e] <;> rfl

@[simp] theorem undefinedOpcode_ia (s : State) : (undefinedOpcode s).ia = s.ia := by
  rcases undefinedOpcode_cases s with ⟨-, e⟩ | ⟨-, v, e⟩ <;> rw [e] <;> rfl

theorem undefinedOpcode_inv {s : State} (h : s.Inv) : (undefinedOpcode s).Inv := by
  rcases undefinedOpcode_cases s with ⟨-, e⟩ | ⟨-, v, e⟩ <;> rw [e] <;> exact h

/-- The move of `sp` told from the operand code (R91). -/
theorem spDelta_code (role : Role) (op : Operand) :
    spDelta role op = if operandCode op = 0x18 then (match role with | .a => 1 | .b => -1) else 0 := by
  by_cases h : op = .pushPop
  · subst h
    cases role <;> rfl
  · rw [if_neg (fun e => h ((operandCode_eq_pushPop op).1 e))]
    cases op <;> cases role <;> first | rfl | exact absurd rfl h

/-- A conditional instruction is decoded from a word that is conditional (R76, R179). -/
theorem isConditional_of_decode {w n₁ n₂ : Word} {i : Instr} {n : Nat} (hd : decode w n₁ n₂ = .ok (i, n))
    (hi : ∃ b a, i ∈ conditionalInstrs b a) : isConditional w = true := by
  obtain ⟨b, a, hi⟩ := hi
  have hs : ∀ o y x, instrShape i = .basic o y x → 0x10 ≤ o.toNat ∧ o.toNat ≤ 0x17 := by
    simp only [conditionalInstrs, List.mem_cons, List.not_mem_nil, or_false] at hi
    rcases hi with rfl | rfl | rfl | rfl | rfl | rfl | rfl | rfl <;> intro o y x h <;> cases h <;> decide
  have he : ∀ o x, instrShape i ≠ .extended o x := by
    simp only [conditionalInstrs, List.mem_cons, List.not_mem_nil, or_false] at hi
    rcases hi with rfl | rfl | rfl | rfl | rfl | rfl | rfl | rfl <;> intro o x h <;> cases h
  rcases (decode_cases hd).2 with ⟨-, h⟩ | ⟨-, h⟩
  · exact absurd h (he _ _)
  · simp [isConditional, (hs _ _ _ h).1, (hs _ _ _ h).2]

/-- A decoded instruction costs one to six ticks by its words and its extra cycles (R276, R277, R281). -/
theorem cost_bounds {s : State} {i : Instr} {n : Nat} (hd : decodeAtPc s = .ok (i, n)) :
    1 ≤ n + extraCycles s.config i ∧ n + extraCycles s.config i ≤ 3 + 3 := by
  obtain ⟨rfl, ⟨h0, -⟩ | ⟨-, hs⟩⟩ := decode_cases hd
  · have h1 := footprint_bounds (wordAhead 0 s)
    have h2 := footprint_le_two _ h0
    have h3 := extraCycles_le s.config i
    omega
  · have h1 := footprint_bounds (wordAhead 0 s)
    have h3 := extraCycles_basic s.config hs
    omega

end Sys2Proof.Machine
end

