-- ==== Sys2Proof/Laws/Pseudocode.lean ====
section
/-! SUPPORT. The model's operand resolution and meanings against the spec's own `Resolve` and operation tables. -/

namespace Sys2Proof.Pseudocode

open Sys2Proof.Machine

/-- The register and the literal of a code, checked on the 64 codes (R75, R91). -/
theorem code_registers : ∀ k : Fin 64, (k.val < 8 → gpr k.val = regOfIndex ((BitVec.ofFin k : BitVec 6).extractLsb' 0 3)) ∧
   (8 ≤ k.val → k.val < 16 → gpr (k.val - 8) = regOfIndex ((BitVec.ofFin k : BitVec 6).extractLsb' 0 3)) ∧
   (16 ≤ k.val → k.val < 24 → gpr (k.val - 16) = regOfIndex ((BitVec.ofFin k : BitVec 6).extractLsb' 0 3)) ∧
   (32 ≤ k.val → u16 ((k.val : Int) - 0x21) = smallValue ((BitVec.ofFin k : BitVec 6).extractLsb' 0 5)) := by decide

/-- `Resolve` of a code is the resolution of the operand it denotes, with the word at `pc` fetched if the code takes one
(R72, R91). -/
theorem resolveCode_eq (c : BitVec 6) (role : Role) (s : State) :
    resolveCode c role s =
      resolve role (operandOf c (memRead s.pc s)) (advance (if needsWord c then 1 else 0) s) := by
  obtain ⟨h1, h2, h3, h4⟩ := code_registers c.toFin
  change (c.toNat < 8 → gpr c.toNat = regOfIndex (c.extractLsb' 0 3)) at h1
  change (8 ≤ c.toNat → c.toNat < 16 → gpr (c.toNat - 8) = regOfIndex (c.extractLsb' 0 3)) at h2
  change (16 ≤ c.toNat → c.toNat < 24 → gpr (c.toNat - 16) = regOfIndex (c.extractLsb' 0 3)) at h3
  change (32 ≤ c.toNat → u16 ((c.toNat : Int) - 0x21) = smallValue (c.extractLsb' 0 5)) at h4
  have hadv : advance 0 s = s := by simp [advance, charge, setPc]
  unfold resolveCode operandOf needsWord
  simp only [fetch_eq]
  by_cases c1 : c.toNat < 8
  · rw [if_pos c1, if_pos c1, if_neg (by simp; omega), hadv, h1 c1]; rfl
  rw [if_neg c1, if_neg c1]
  by_cases c2 : c.toNat < 16
  · rw [if_pos c2, if_pos c2, if_neg (by simp; omega), hadv, h2 (by omega) c2]; rfl
  rw [if_neg c2, if_neg c2]
  by_cases c3 : c.toNat < 24
  · rw [if_pos c3, if_pos c3, if_pos (by simp; omega), h3 (by omega) c3]; rfl
  rw [if_neg c3, if_neg c3]
  by_cases c4 : c.toNat = 24
  · rw [if_pos c4, if_pos c4, if_neg (by simp; omega), hadv]; rfl
  rw [if_neg c4, if_neg c4]
  by_cases c5 : c.toNat = 25
  · rw [if_pos c5, if_pos c5, if_neg (by simp; omega), hadv]; rfl
  rw [if_neg c5, if_neg c5]
  by_cases c6 : c.toNat = 26
  · rw [if_pos c6, if_pos c6, if_pos (by simp; omega)]; rfl
  rw [if_neg c6, if_neg c6]
  by_cases c7 : c.toNat = 27
  · rw [if_pos c7, if_pos c7, if_neg (by simp; omega), hadv]; rfl
  rw [if_neg c7, if_neg c7]
  by_cases c8 : c.toNat = 28
  · rw [if_pos c8, if_pos c8, if_neg (by simp; omega), hadv]; rfl
  rw [if_neg c8, if_neg c8]
  by_cases c9 : c.toNat = 29
  · rw [if_pos c9, if_pos c9, if_neg (by simp; omega), hadv]; rfl
  rw [if_neg c9, if_neg c9]
  by_cases ca : c.toNat = 30
  · rw [if_pos ca, if_pos ca, if_pos (by simp; omega)]; rfl
  rw [if_neg ca, if_neg ca]
  by_cases cb : c.toNat = 31
  · rw [if_pos cb, if_pos cb, if_pos (by simp; omega)]; rfl
  rw [if_neg cb, if_neg cb, if_neg (by simp; omega), hadv, h4 (by omega)]; rfl

/-- Operand `a`, resolved after the instruction word was fetched. -/
theorem resolveCode_a (w : Word) (s : State) :
   resolveCode (fieldA w) .a (advance 1 s) =
     resolve .a (operandA w (wordAhead 1 s)) (advance (1 + if needsWord (fieldA w) then 1 else 0) s) := by
  rw [resolveCode_eq, advance_advance]
  rfl

/-- Operand `b`, resolved after operand `a`: what sampling both gives once all words are fetched. -/
theorem resolveCode_b (w : Word) (s : State) (h0 : fieldO w ≠ 0) :
   resolveCode ((fieldB w).setWidth 6) .b (resolveCode (fieldA w) .a (advance 1 s)).2 =
     ((sample (operandB w (wordAhead 1 s) (wordAhead 2 s)) (operandA w (wordAhead 1 s)) (advance (footprint w) s)).lb,
      (sample (operandB w (wordAhead 1 s) (wordAhead 2 s)) (operandA w (wordAhead 1 s)) (advance (footprint w) s)).st) := by
  have hf : footprint w =
      (1 + if needsWord (fieldA w) then 1 else 0) + (if needsWord ((fieldB w).setWidth 6) then 1 else 0) := by
    simp only [footprint, h0, ne_eq, not_false_eq_true, true_and]
  have hs : ∀ B A, ((sample B A (advance (footprint w) s)).lb, (sample B A (advance (footprint w) s)).st) =
     resolve .b B (resolve .a A (advance (footprint w) s)).2 := fun _ _ => rfl
  rw [hs, hf, ← advance_advance, resolve_advance, resolveCode_a, resolveCode_eq]
  have hm : operandOf ((fieldB w).setWidth 6)
      (memRead
        (resolve .a (operandA w (wordAhead 1 s)) (advance (1 + if needsWord (fieldA w) then 1 else 0) s)).2.pc
        (resolve .a (operandA w (wordAhead 1 s)) (advance (1 + if needsWord (fieldA w) then 1 else 0) s)).2) =
      operandB w (wordAhead 1 s) (wordAhead 2 s) := by
    unfold operandB
    congr 1
    rw [resolve_state]
    by_cases hn : needsWord (fieldA w) = true <;> simp [hn, memRead, wordAhead]
  rw [hm]

/-- The location of operand `a` of a basic instruction. -/
theorem resolveCode_a_loc (w : Word) (s : State) (B : Operand) : (resolveCode (fieldA w) .a (advance 1 s)).1 =
   (sample B (operandA w (wordAhead 1 s)) (advance (footprint w) s)).la := by
  rw [resolveCode_a]
  exact resolve_loc_congr _ _ rfl rfl

/-- The operand of an extended instruction. -/
theorem resolveCode_extended (w : Word) (s : State) (h0 : fieldO w = 0) : resolveCode (fieldA w) .a (advance 1 s) =
   ((sampleA (operandA w (wordAhead 1 s)) (advance (footprint w) s)).la,
     (sampleA (operandA w (wordAhead 1 s)) (advance (footprint w) s)).st) := by
  have hf : footprint w = (1 + if needsWord (fieldA w) then 1 else 0) := by
    simp [footprint, h0]
  rw [resolveCode_a, hf]; rfl

/-- Each basic instruction's meaning is the spec's own (R121..R178). -/
theorem executePrimary_eq (o : BitVec 5) (B A : Operand) (i : Instr) (s : State) (h : primaryInstr o B A = some i) :
   exec i s = executePrimary o.toNat (sample B A s).lb (sample B A s).va (sample B A s).vb
     (charge (extraPrimary o.toNat) (sample B A s).st) := by
  have hk : ∀ k : Fin 32, ∀ i, primaryInstr (BitVec.ofFin k) B A = some i →
      exec i s = executePrimary k.val (sample B A s).lb (sample B A s).va (sample B A s).vb
     (charge (extraPrimary k.val) (sample B A s).st) := by
    have hex : (sample B A s).st.ex = s.ex := by rw [sample_st]; rfl
    have hcf : (sample B A s).st.config = s.config := by rw [sample_st]; rfl
    intro k i h
    have hskip : ∀ (c : Word → Word → Bool) (d : Prop) [Decidable d] (j : Instr),
          (c (sample B A s).vb (sample B A s).va = true ↔ d) → extraCycles s.config j = 1 →
          runConditional j B A c s = unlessSkip d (charge 1 (sample B A s).st) := by
        intro c d _ j hc he
        unfold runConditional unlessSkip
        simp only [he]
        by_cases hd : d
        · rw [if_pos (hc.2 hd), if_pos hd]
        · refine (if_neg (fun e => hd (hc.1 e))).trans (Eq.trans ?_ (if_neg hd).symm)
          cases skip (charge 1 (sample B A s).st) <;> rfl
    fin_cases k <;> cases h
    · rfl
    · rfl
    · rfl
    · rfl
    · rfl
    · by_cases h0 : (sample B A s).va = 0
      · refine Eq.trans (b := Host.Outcome.next (store (sample B A s).lb 0 (setEx 0 (charge 2 (sample B A s).st))))
          ?_ ?_
        · show Host.Outcome.next (runAlu _ _ _ _ _) = _
          rw [runAlu_eq, aluDiv, if_pos h0]; rfl
        · exact (if_pos h0).symm
      · refine Eq.trans (b := Host.Outcome.next (store (sample B A s).lb _ (setEx _ (charge 2 (sample B A s).st))))
          ?_ (if_neg h0).symm
        show Host.Outcome.next (runAlu _ _ _ _ _) = _
        rw [runAlu_eq, aluDiv, if_neg h0]; rfl
    · by_cases h0 : (sample B A s).va = 0
      · refine Eq.trans (b := Host.Outcome.next (store (sample B A s).lb 0 (setEx 0 (charge 2 (sample B A s).st))))
          ?_ ?_
        · show Host.Outcome.next (runAlu _ _ _ _ _) = _
          rw [runAlu_eq, aluDvi, if_pos h0]; rfl
        · exact (if_pos h0).symm
      · refine Eq.trans (b := Host.Outcome.next (store (sample B A s).lb _ (setEx _ (charge 2 (sample B A s).st))))
          ?_ (if_neg h0).symm
        show Host.Outcome.next (runAlu _ _ _ _ _) = _
        rw [runAlu_eq, aluDvi, if_neg h0]; rfl
    · by_cases h0 : (sample B A s).va = 0
      · refine Eq.trans (b := Host.Outcome.next (store (sample B A s).lb 0 (charge 2 (sample B A s).st)))
          ?_ (if_pos h0).symm
        show Host.Outcome.next (runAlu _ _ _ _ _) = _
        rw [runAlu_eq, aluMod, if_pos h0]; rfl
      · refine Eq.trans (b := Host.Outcome.next (store (sample B A s).lb _ (charge 2 (sample B A s).st)))
          ?_ (if_neg h0).symm
        show Host.Outcome.next (runAlu _ _ _ _ _) = _
        rw [runAlu_eq, aluMod, if_neg h0]; rfl
    · by_cases h0 : (sample B A s).va = 0
      · refine Eq.trans (b := Host.Outcome.next (store (sample B A s).lb 0 (charge 2 (sample B A s).st)))
          ?_ (if_pos h0).symm
        show Host.Outcome.next (runAlu _ _ _ _ _) = _
        rw [runAlu_eq, aluMdi, if_pos h0]; rfl
      · refine Eq.trans (b := Host.Outcome.next (store (sample B A s).lb _ (charge 2 (sample B A s).st)))
          ?_ (if_neg h0).symm
        show Host.Outcome.next (runAlu _ _ _ _ _) = _
        rw [runAlu_eq, aluMdi, if_neg h0]; rfl
    · rfl
    · rfl
    · rfl
    · rfl
    · show Host.Outcome.next (runAlu _ _ _ _ _) = _
      rw [runAlu_eq]
      show _ = Host.Outcome.next (store _ _ (setEx (u16 (shiftRight
        (shiftLeft (if (sample B A s).st.config.asrExSigned = true then _ else _) 16) _)) _))
      rw [hcf]; rfl
    · rfl
    · exact hskip condIfb _ (.ifb B A) decide_eq_true_iff rfl
    · exact hskip condIfc _ (.ifc B A) decide_eq_true_iff rfl
    · exact hskip condIfe _ (.ife B A) decide_eq_true_iff rfl
    · exact hskip condIfn _ (.ifn B A) decide_eq_true_iff rfl
    · exact hskip condIfg _ (.ifg B A) decide_eq_true_iff rfl
    · exact hskip condIfa _ (.ifa B A) decide_eq_true_iff rfl
    · exact hskip condIfl _ (.ifl B A) decide_eq_true_iff rfl
    · exact hskip condIfu _ (.ifu B A) decide_eq_true_iff rfl
    · show Host.Outcome.next (runAlu _ _ _ _ _) = _
      rw [runAlu_eq]
      show _ = Host.Outcome.next (store _ (u16 (_ + uint (sample B A s).st.ex))
        (setEx (if _ + uint (sample B A s).st.ex > 0xFFFF then 1 else 0) _))
      rw [hex]; rfl
    · show Host.Outcome.next (runAlu _ _ _ _ _) = _
      rw [runAlu_eq]
      show _ = Host.Outcome.next (store _
        (u16 (_ + if (sample B A s).st.config.sbxExSigned = true then s16 (sample B A s).st.ex else uint (sample B A s).st.ex))
        (setEx
          (if _ + (if (sample B A s).st.config.sbxExSigned = true then s16 (sample B A s).st.ex else uint (sample B A s).st.ex) < 0
            then 0xFFFF else 0) _))
      rw [hex, hcf]; rfl
    · rfl
    · have hm : ∀ t : State, stepIJ 0xFFFF t =
          setReg .J (readReg (setReg .I (readReg t.regs .I - 1) t).regs .J - 1)
            (setReg .I (readReg t.regs .I - 1) t) := by
        intro t
        have : ∀ x : Word, x - 1 = x + 0xFFFF := fun x => by rw [BitVec.sub_eq_add_neg]; rfl
        rw [this, this, stepIJ]; generalize (65535 : Word) = d; rfl
      show Host.Outcome.next (stepIJ 0xFFFF (runAlu (.std B A) B A aluSet s)) = _
      rw [hm]; rfl
  exact hk o.toFin i h

/-- Each extended instruction's meaning is the spec's own (R190..R207). -/
theorem executeExtended_eq (e : BitVec 5) (A : Operand) (i : Instr) (s : State) (h : extendedInstr e A = some i) :
   exec i s = executeExtended e.toNat (sampleA A s).la (sampleA A s).va
     (charge (extraExtended (sampleA A s).st.config e.toNat) (sampleA A s).st) := by
  have hk : ∀ k : Fin 32, ∀ i, extendedInstr (BitVec.ofFin k) A = some i →
      exec i s = executeExtended k.val (sampleA A s).la (sampleA A s).va
     (charge (extraExtended (sampleA A s).st.config k.val) (sampleA A s).st) := by
    have hcf : (sampleA A s).st.config = s.config := by rw [sampleA_st]; rfl
    rw [hcf]
    intro k i h
    fin_cases k <;> cases h
    · rfl
    · rfl
    · rfl
    · rfl
    · rfl
    · refine congrArg Host.Outcome.next ?_
      show setIq (decide _) _ = setIq _ _
      congr 1
      show decide ((sampleA A s).va ≠ 0) = ((sampleA A s).va != 0)
      simp [bne, BEq.beq]
    · rfl
    · refine congrArg Host.Outcome.next ?_
      have : ∀ t : State, ∀ v, deviceAt v t = t.config.devices.getD v { id := 0, version := 0, manufacturer := 0 } := by
        intro t v; unfold deviceAt; rw [List.getD_eq_getElem?_getD]; cases t.config.devices[v]? <;> rfl
      show writeIdentity (deviceAt _ _) _ = _
      rw [this]; rfl
    · by_cases hd : (sampleA A s).va.toNat < s.config.devices.length
      · refine Eq.trans (b := Host.Outcome.next (callDevice (sampleA A s).va.toNat (charge 3 (sampleA A s).st)))
          ?_ (if_pos (by rw [← hcf] at hd; exact hd)).symm
        exact congrArg Host.Outcome.next (if_pos (by rw [← hcf] at hd; exact hd))
      · refine Eq.trans (b := Host.Outcome.next ((charge 3 (sampleA A s).st)))
          ?_ (if_neg (by rw [← hcf] at hd; exact hd)).symm
        exact congrArg Host.Outcome.next (if_neg (by rw [← hcf] at hd; exact hd))
  exact hk e.toFin i h

end Sys2Proof.Pseudocode
end

