-- ==== Sys2Proof/Laws/Tick.lean ====
section
/-! SUPPORT. No instruction reads `tick`: every operation does the same where `tick` is `k` higher (R27, R249). -/

namespace Sys2Proof.Machine

/-- An outcome with `tick` `k` higher in its next state. -/
def chargeOutcome (k : Nat) : Host.Outcome State Fault Refusal → Host.Outcome State Fault Refusal
  | .next t => .next (charge k t)
  | .fault f => .fault f
  | .refused r => .refused r

theorem sample_charge (b a : Operand) (k : Nat) (s : State) :
    sample b a (charge k s) = { sample b a s with st := charge k (sample b a s).st } := by
  cases b <;> cases a <;> rfl

theorem sampleA_charge (a : Operand) (k : Nat) (s : State) :
    sampleA a (charge k s) = { sampleA a s with st := charge k (sampleA a s).st } := by
  cases a <;> rfl

theorem charge_comm (k n : Nat) (s : State) : charge n (charge k s) = charge k (charge n s) := by
  rw [charge_charge, charge_charge, Nat.add_comm]

theorem setExIf_charge (v : Option Word) (k : Nat) (s : State) : setExIf v (charge k s) = charge k (setExIf v s) := by
  cases v <;> rfl

theorem runAlu_charge (i : Instr) (b a : Operand) (f : Word → Word → AluOut) (k : Nat) (s : State) :
    runAlu i b a f (charge k s) = charge k (runAlu i b a f s) := by
  simp only [runAlu_eq, sample_charge, charge_config]
  rw [charge_comm, setExIf_charge, store_charge]

theorem runConditional_charge (i : Instr) (b a : Operand) (f : Word → Word → Bool) (k : Nat) (s : State) :
    runConditional i b a f (charge k s) =
   chargeOutcome k (runConditional i b a f s) := by
  unfold runConditional
  simp only [sample_charge, charge_config]
  rw [charge_comm, skip_charge]
  split
  · rfl
  · cases skip (charge (extraCycles s.config i) (sample b a s).st) <;> rfl

theorem enqueue_charge (m : Word) (k : Nat) (s : State) : enqueue m (charge k s) = charge k (enqueue m s) := by
  unfold enqueue
  rw [charge_queue]
  split <;> rfl

theorem exec_charge (i : Instr) (k : Nat) (s : State) : exec i (charge k s) =
   chargeOutcome k (exec i s) := by
  rcases instr_families i with ⟨b, a, hi⟩ | ⟨b, a, hi⟩ | ⟨b, a, hi⟩ | ⟨a, hi⟩
  · simp only [aluInstrs, List.mem_cons, List.not_mem_nil, or_false] at hi
    rcases hi with rfl | rfl | rfl | rfl | rfl | rfl | rfl | rfl | rfl | rfl | rfl | rfl | rfl | rfl | rfl | rfl | rfl <;>
    exact congrArg Host.Outcome.next (runAlu_charge _ b a _ k s)
  · obtain ⟨d, e⟩ := exec_stiStd hi
    rw [e, e, runAlu_charge]
    rfl
  · simp only [conditionalInstrs, List.mem_cons, List.not_mem_nil, or_false] at hi
    rcases hi with rfl | rfl | rfl | rfl | rfl | rfl | rfl | rfl <;>
    exact runConditional_charge _ b a _ k s
  · have hx : ∀ i act, (∀ l v t, act l v (charge k t) = charge k (act l v t)) →
        runExtended i a act (charge k s) = charge k (runExtended i a act s) := by
      intro i act h
      unfold runExtended
      simp only [sampleA_charge, charge_config]
      rw [charge_comm, h]
    simp only [extendedInstrs, List.mem_cons, List.not_mem_nil, or_false] at hi
    rcases hi with rfl | rfl | rfl | rfl | rfl | rfl | rfl | rfl | rfl <;>
    refine congrArg Host.Outcome.next (hx _ _ ?_) <;> intro l v t
    · rfl
    · exact enqueue_charge _ _ _
    · exact store_charge _ _ _ _
    · rfl
    · rfl
    · rfl
    · exact store_charge _ _ _ _
    · rfl
    · by_cases h : v.toNat < deviceCount t
      · rw [if_pos h, if_pos (show v.toNat < deviceCount (charge k t) from h)]
        rfl
      · rw [if_neg h, if_neg (show ¬ v.toNat < deviceCount (charge k t) from h)]

theorem atBoundary_charge (k : Nat) (o : Host.Outcome State Fault Refusal) :
    atBoundary (chargeOutcome k o) = chargeOutcome k (atBoundary o) := by
  cases o with
  | next s => exact congrArg Host.Outcome.next (boundary_charge k s)
  | fault f => rfl
  | refused f => rfl

end Sys2Proof.Machine
end

