-- ==== Sys2Proof/Tests/Slice0.lean ====
section
/-! SUPPORT. Tests.  Every expected value comes from spec/95_test_vectors.md, or from the rule cited, by hand. -/

namespace Sys2Proof.Machine.Tests

/-! ### Helpers -/

/-- The machine after reset with words loaded from address 0 (R272). -/
def load0 (ws : List Word) : State := hostWrite 0 ws State.reset

/-- The machine with one word at address 0 and `A`, `B`, `EX` set: the layout of sections 2.3 to 2.5. -/
def withAB (word a b ex : Word) : State :=
  { load0 [word] with regs := { State.reset.regs with a := a, b := b }, ex := ex }

/-- Whether the state after one step meets a check. -/
def after (s : State) (check : State → Bool) : Bool :=
  match step s with
  | .next t => check t
  | .fault _ => false
  | .refused _ => false

/-- The result in `A` and the `EX` after one step, with `B` unchanged and the given cost in `tick`. -/
def gives (word a b ex : Word) (result exOut tick : Word) : Bool :=
  after (withAB word a b ex) fun t =>
    t.regs.a == result && t.ex == exOut && t.tick == tick && t.regs.b == b && t.pc == 1

/-- Whether a conditional instruction on `A`, `B` holds: one word passed, or the next instruction skipped too. -/
def holds (word a b : Word) : Bool := after (withAB word a b 0) fun t => t.pc == 1 && t.tick == 2

/-- Whether a conditional instruction on `A`, `B` fails. -/
def fails (word a b : Word) : Bool := after (withAB word a b 0) fun t => t.pc == 2 && t.tick == 3

/-! ### Well-formedness: the one check refuses an embedded literal as destination, in every basic instruction -/

theorem test_wf_literal_destination : (Instr.set (.small 5) (.reg .A)).wellFormed = false := by decide

theorem test_wf_literal_source : (Instr.set (.reg .A) (.small 5)).wellFormed = true := by decide

theorem test_wf_next_word_destination : (Instr.set (.lit 5) (.reg .A)).wellFormed = true := by decide

theorem test_wf_every_basic : ([
    .set (.small 0) (.reg .B), .add (.small 0) (.reg .B), .sub (.small 0) (.reg .B), .mul (.small 0) (.reg .B),
    .mli (.small 0) (.reg .B), .div (.small 0) (.reg .B),
    .dvi (.small 0) (.reg .B), .mod (.small 0) (.reg .B), .mdi (.small 0) (.reg .B), .and (.small 0) (.reg .B),
    .bor (.small 0) (.reg .B), .xor (.small 0) (.reg .B),
    .shr (.small 0) (.reg .B), .asr (.small 0) (.reg .B), .shl (.small 0) (.reg .B), .ifb (.small 0) (.reg .B),
    .ifc (.small 0) (.reg .B), .ife (.small 0) (.reg .B),
    .ifn (.small 0) (.reg .B), .ifg (.small 0) (.reg .B), .ifa (.small 0) (.reg .B), .ifl (.small 0) (.reg .B),
    .ifu (.small 0) (.reg .B), .adx (.small 0) (.reg .B),
    .sbx (.small 0) (.reg .B), .sti (.small 0) (.reg .B),
    .std (.small 0) (.reg .B)] : List Instr).all (fun i => !i.wellFormed) = true := by
  decide

/-! ### Decoding: section 2.1, one word per instruction, operands `A` (b) and `B` (a), or `A` -/

theorem test_decode_set : decode 0x0401 0 0 = .ok (.set (.reg .A) (.reg .B), 1) := by decide

theorem test_decode_add : decode 0x0402 0 0 = .ok (.add (.reg .A) (.reg .B), 1) := by decide

theorem test_decode_sub : decode 0x0403 0 0 = .ok (.sub (.reg .A) (.reg .B), 1) := by decide

theorem test_decode_mul : decode 0x0404 0 0 = .ok (.mul (.reg .A) (.reg .B), 1) := by decide

theorem test_decode_mli : decode 0x0405 0 0 = .ok (.mli (.reg .A) (.reg .B), 1) := by decide

theorem test_decode_div : decode 0x0406 0 0 = .ok (.div (.reg .A) (.reg .B), 1) := by decide

theorem test_decode_dvi : decode 0x0407 0 0 = .ok (.dvi (.reg .A) (.reg .B), 1) := by decide

theorem test_decode_mod : decode 0x0408 0 0 = .ok (.mod (.reg .A) (.reg .B), 1) := by decide

theorem test_decode_mdi : decode 0x0409 0 0 = .ok (.mdi (.reg .A) (.reg .B), 1) := by decide

theorem test_decode_and : decode 0x040A 0 0 = .ok (.and (.reg .A) (.reg .B), 1) := by decide

theorem test_decode_bor : decode 0x040B 0 0 = .ok (.bor (.reg .A) (.reg .B), 1) := by decide

theorem test_decode_xor : decode 0x040C 0 0 = .ok (.xor (.reg .A) (.reg .B), 1) := by decide

theorem test_decode_shr : decode 0x040D 0 0 = .ok (.shr (.reg .A) (.reg .B), 1) := by decide

theorem test_decode_asr : decode 0x040E 0 0 = .ok (.asr (.reg .A) (.reg .B), 1) := by decide

theorem test_decode_shl : decode 0x040F 0 0 = .ok (.shl (.reg .A) (.reg .B), 1) := by decide

theorem test_decode_ifb : decode 0x0410 0 0 = .ok (.ifb (.reg .A) (.reg .B), 1) := by decide

theorem test_decode_ifc : decode 0x0411 0 0 = .ok (.ifc (.reg .A) (.reg .B), 1) := by decide

theorem test_decode_ife : decode 0x0412 0 0 = .ok (.ife (.reg .A) (.reg .B), 1) := by decide

theorem test_decode_ifn : decode 0x0413 0 0 = .ok (.ifn (.reg .A) (.reg .B), 1) := by decide

theorem test_decode_ifg : decode 0x0414 0 0 = .ok (.ifg (.reg .A) (.reg .B), 1) := by decide

theorem test_decode_ifa : decode 0x0415 0 0 = .ok (.ifa (.reg .A) (.reg .B), 1) := by decide

theorem test_decode_ifl : decode 0x0416 0 0 = .ok (.ifl (.reg .A) (.reg .B), 1) := by decide

theorem test_decode_ifu : decode 0x0417 0 0 = .ok (.ifu (.reg .A) (.reg .B), 1) := by decide

theorem test_decode_adx : decode 0x041A 0 0 = .ok (.adx (.reg .A) (.reg .B), 1) := by decide

theorem test_decode_sbx : decode 0x041B 0 0 = .ok (.sbx (.reg .A) (.reg .B), 1) := by decide

theorem test_decode_sti : decode 0x041E 0 0 = .ok (.sti (.reg .A) (.reg .B), 1) := by decide

theorem test_decode_std : decode 0x041F 0 0 = .ok (.std (.reg .A) (.reg .B), 1) := by decide

theorem test_decode_jsr : decode 0x0020 0 0 = .ok (.jsr (.reg .A), 1) := by decide

theorem test_decode_int : decode 0x0100 0 0 = .ok (.int (.reg .A), 1) := by decide

theorem test_decode_iag : decode 0x0120 0 0 = .ok (.iag (.reg .A), 1) := by decide

theorem test_decode_ias : decode 0x0140 0 0 = .ok (.ias (.reg .A), 1) := by decide

theorem test_decode_rfi : decode 0x0160 0 0 = .ok (.rfi (.reg .A), 1) := by decide

theorem test_decode_iaq : decode 0x0180 0 0 = .ok (.iaq (.reg .A), 1) := by decide

theorem test_decode_hwn : decode 0x0200 0 0 = .ok (.hwn (.reg .A), 1) := by decide

theorem test_decode_hwq : decode 0x0220 0 0 = .ok (.hwq (.reg .A), 1) := by decide

theorem test_decode_hwi : decode 0x0240 0 0 = .ok (.hwi (.reg .A), 1) := by decide

/-- Every operand code in the source field, from the words of section 2.2. -/
theorem test_decode_sources :
    [0x0461, 0x2461, 0x4461, 0x6061, 0x6461, 0x6861, 0x6C61, 0x7061, 0x7461, 0x7861, 0x7C61, 0x8061, 0xFC61].map
      (fun w => decode w 0x2000 0) =
    [.ok (.set (.reg .X) (.reg .B), 1), .ok (.set (.reg .X) (.ind .B), 1), .ok (.set (.reg .X) (.idx .B 0x2000), 2),
      .ok (.set (.reg .X) .pushPop, 1), .ok (.set (.reg .X) .peek, 1), .ok (.set (.reg .X) (.pick 0x2000), 2),
      .ok (.set (.reg .X) .sp, 1), .ok (.set (.reg .X) .pc, 1), .ok (.set (.reg .X) .ex, 1),
      .ok (.set (.reg .X) (.mem 0x2000), 2), .ok (.set (.reg .X) (.lit 0x2000), 2),
      .ok (.set (.reg .X) (.small 0), 1), .ok (.set (.reg .X) (.small 31), 1)] := by decide

/-- Every operand code in the destination field, from the words of section 2.2. -/
theorem test_decode_destinations :
    [0xA121, 0xA221, 0xA301, 0xA321, 0xA341, 0xA361, 0xA381, 0xA3A1, 0xA3C1, 0xA3E1].map (fun w => decode w 0x55 0) =
    [.ok (.set (.ind .B) (.small 8), 1), .ok (.set (.idx .B 0x55) (.small 8), 2), .ok (.set .pushPop (.small 8), 1),
      .ok (.set .peek (.small 8), 1), .ok (.set (.pick 0x55) (.small 8), 2), .ok (.set .sp (.small 8), 1),
      .ok (.set .pc (.small 8), 1), .ok (.set .ex (.small 8), 1), .ok (.set (.mem 0x55) (.small 8), 2),
      .ok (.set (.lit 0x55) (.small 8), 2)] := by decide

/-- The next word of `a` comes before that of `b` (R74): `STI [I+n], [I+m]`. -/
theorem test_decode_word_order :
    decode 0x5ADE 0x1000 0x2000 = .ok (.sti (.idx .I 0x2000) (.idx .I 0x1000), 3) := by decide

theorem test_decode_undefined :
    [0x0000, 0x0040, 0x00E0, 0x01A0, 0x01E0, 0x0260, 0x03E0].map (fun w => decode w 0 0) =
    [.error (.extendedOpcode 0), .error (.extendedOpcode 2), .error (.extendedOpcode 7), .error (.extendedOpcode 0x0D),
      .error (.extendedOpcode 0x0F), .error (.extendedOpcode 0x13), .error (.extendedOpcode 0x1F)] := by decide

theorem test_decode_undefined_primary :
    [0x0018, 0x0019, 0x001C, 0x001D, 0x6318, 0xFFFD].map (fun w => decode w 0 0) =
    [.error (.primaryOpcode 0x18), .error (.primaryOpcode 0x19), .error (.primaryOpcode 0x1C),
      .error (.primaryOpcode 0x1D), .error (.primaryOpcode 0x18), .error (.primaryOpcode 0x1D)] := by decide

theorem test_footprints :
    [0x7FE1, 0x7C20, 0x0000, 0x7C00, 0x03E0, 0x7FF8, 0x8560, 0x5ADE, 0x6821, 0x0012].map footprint =
      [3, 2, 1, 2, 1, 3, 1, 3, 2, 1] := by decide

theorem test_encode_word_order : encode (.sti (.idx .I 0x2000) (.idx .I 0x1000)) = [0x5ADE, 0x1000, 0x2000] := by decide

theorem test_table_word : decodeTableWord 16 0x8021 = decodeTableWord 32 0x00008021 := by decide

/-- R84: `SET A, 0x30` as 32 bits, its first word in bits 15:0. -/
theorem test_table_second_word : decodeTableWord 32 0x00307C01 = some (.set (.reg .A) (.lit 0x30)) := by decide

theorem test_fetch_word :
    after (State.reset.withFetchWord 32 0x00307C01) (fun t => t.regs.a == 0x30 && t.pc == 2 && t.tick == 2) = true := by
  decide

/-! ### Arithmetic, logic and shifts: sections 2.3 and 2.4 -/

theorem test_set_1 : gives 0x0401 0x1234 0x5678 0x0077 0x5678 0x0077 1 = true := by decide

theorem test_add_1 : gives 0x0402 0xFFFF 0x0001 0x0000 0x0000 0x0001 1 = true := by decide

theorem test_add_2 : gives 0x0402 0x0000 0x0000 0x5555 0x0000 0x0000 1 = true := by decide

theorem test_sub_1 : gives 0x0403 0x0003 0x0005 0x0000 0xFFFE 0xFFFF 1 = true := by decide

theorem test_sub_2 : gives 0x0403 0x8000 0x0001 0xFFFF 0x7FFF 0x0000 1 = true := by decide

theorem test_mul_1 : gives 0x0404 0xFFFF 0xFFFF 0x0000 0x0001 0xFFFE 2 = true := by decide

theorem test_mul_2 : gives 0x0404 0x1234 0x0010 0x0000 0x2340 0x0001 2 = true := by decide

theorem test_mli_1 : gives 0x0405 0x8000 0x7FFF 0x0000 0x8000 0xC000 2 = true := by decide

theorem test_mli_2 : gives 0x0405 0xFFFE 0x0003 0x0000 0xFFFA 0xFFFF 2 = true := by decide

theorem test_div_1 : gives 0x0406 0x8000 0x0003 0x0000 0x2AAA 0xAAAA 3 = true := by decide

theorem test_div_2 : gives 0x0406 0x1234 0x0000 0x5555 0x0000 0x0000 3 = true := by decide

theorem test_dvi_1 : gives 0x0407 0xFFF9 0x0002 0x0000 0xFFFD 0x8000 3 = true := by decide

theorem test_dvi_2 : gives 0x0407 0x0001 0xFFFD 0x0000 0x0000 0xAAAB 3 = true := by decide

theorem test_mod_1 : gives 0x0408 0xFFF9 0x0010 0x0077 0x0009 0x0077 3 = true := by decide

theorem test_mod_2 : gives 0x0408 0x1234 0x0000 0x0077 0x0000 0x0077 3 = true := by decide

theorem test_mdi_1 : gives 0x0409 0xFFF9 0x0010 0x0077 0xFFF9 0x0077 3 = true := by decide

theorem test_mdi_2 : gives 0x0409 0x8000 0xFFFF 0x0000 0x0000 0x0000 3 = true := by decide

theorem test_adx_1 : gives 0x041A 0xFFFF 0xFFFF 0xFFFF 0xFFFD 0x0001 2 = true := by decide

theorem test_adx_2 : gives 0x041A 0xFFFF 0x0000 0x0001 0x0000 0x0001 2 = true := by decide

theorem test_sbx_1 : gives 0x041B 0x0005 0x0003 0xFFFF 0x0001 0x0000 2 = true := by decide

theorem test_and_1 : gives 0x040A 0xF0F0 0x3C3C 0x0077 0x3030 0x0077 1 = true := by decide

theorem test_bor_1 : gives 0x040B 0xF0F0 0x3C3C 0x0077 0xFCFC 0x0077 1 = true := by decide

theorem test_xor_1 : gives 0x040C 0xF0F0 0x3C3C 0x0077 0xCCCC 0x0077 1 = true := by decide

theorem test_shr_1 : gives 0x040D 0x8001 0x0001 0x0000 0x4000 0x8000 2 = true := by decide

theorem test_shr_2 : gives 0x040D 0xABCD 0x0011 0x0000 0x0000 0x55E6 2 = true := by decide

theorem test_asr_1 : gives 0x040E 0xABCD 0x0014 0x0000 0xFFFF 0xFABC 2 = true := by decide

theorem test_shl_1 : gives 0x040F 0x8001 0x0001 0x0000 0x0002 0x0001 2 = true := by decide

theorem test_shl_2 : gives 0x040F 0xABCD 0x0011 0x0000 0x0000 0x579A 2 = true := by decide

/-- Section 2.3, the row (3, 5) under `SBX_EX_SIGNED = true`. -/
theorem test_sbx_signed :
    (aluSbx true 3 5 0xFFFF, aluSbx true 1 0 0xFFFF) = (⟨0xFFFD, some 0xFFFF⟩, ⟨0, some 0⟩) := by decide

/-- Section 2.4, the count 0x11 under `ASR_EX_SIGNED = false`. -/
theorem test_asr_unsigned : aluAsr false 0xABCD 0x11 = ⟨0xFFFF, some 0x55E6⟩ := by decide

theorem test_sti :
    after { load0 [0xA0DE] with regs := { State.reset.regs with i := 3, j := 3 } }
      (fun t => t.regs.i == 8 && t.regs.j == 4 && t.tick == 2) = true := by decide

theorem test_sti_wraps :
    after { load0 [0x181E] with regs := { State.reset.regs with i := 0xFFFF, j := 0xFFFF } }
      (fun t => t.regs.a == 0xFFFF && t.regs.i == 0 && t.regs.j == 0) = true := by decide

theorem test_std :
    after { load0 [0x18FF] with regs := { State.reset.regs with i := 3, j := 9 } }
      (fun t => t.regs.j == 2 && t.regs.i == 2) = true := by decide

/-! ### Operands: section 2.2 -/

/-- `SET X, [B + 0xFFFF]` reads 1FFF with `B = 2000`. -/
theorem test_indexed_wraps :
    after (memWrite 0x1FFF 0x1F1F { load0 [0x4461, 0xFFFF] with regs := { State.reset.regs with b := 0x2000 } })
      (fun t => t.regs.x == 0x1F1F && t.pc == 2) = true := by decide

/-- `SET PUSH, SP` stores the value after the decrement. -/
theorem test_push_sp :
    after { load0 [0x6F01] with sp := 0xFFF0 } (fun t => t.sp == 0xFFEF && memRead 0xFFEF t == 0xFFEF) = true := by decide

/-- `ADD PICK 1, POP`: the source is popped before the destination is addressed. -/
theorem test_pick_after_pop :
    after (memWrite 0xFFF0 0xAAA0 (memWrite 0xFFF2 0xAAA2 { load0 [0x6342, 1] with sp := 0xFFF0 }))
      (fun t => t.sp == 0xFFF1 && memRead 0xFFF2 t == 0x5542 && t.ex == 1) = true := by decide

/-- `SET [0x1000], PC` stores the address after both words. -/
theorem test_source_pc : after (load0 [0x73C1, 0x1000]) (fun t => memRead 0x1000 t == 2) = true := by decide

/-- `ADD EX, 0xFFFF` with `EX = 1`: the carry is overwritten by the result. -/
theorem test_add_ex : after { load0 [0x83A2] with ex := 1 } (fun t => t.ex == 0) = true := by decide

/-- `ADD <literal 0x55>, 0xFFFF`: the write is dropped, `EX` is not. -/
theorem test_add_literal :
    after (load0 [0x83E2, 0x55]) (fun t => t.ex == 1 && memRead 1 t == 0x55 && t.pc == 2) = true := by decide

/-- `SET [0x2000], 0x30` in the cells FFFE, FFFF, 0000. -/
theorem test_fetch_wraps :
    after (memWrite 0xFFFE 0x7FC1 (memWrite 0xFFFF 0x30 { load0 [0x2000] with pc := 0xFFFE }))
      (fun t => memRead 0x2000 t == 0x30 && t.pc == 1) = true := by decide

/-! ### Conditional instructions: section 2.5, one row that holds and one that fails of each -/

theorem test_ifb_holds : holds 0x0410 0xFFFF 0x0001 = true := by decide

theorem test_ifb_fails : fails 0x0410 0x00F0 0x000F = true := by decide

theorem test_ifc_holds : holds 0x0411 0x00F0 0x000F = true := by decide

theorem test_ifc_fails : fails 0x0411 0x0001 0xFFFF = true := by decide

theorem test_ife_holds : holds 0x0412 0x0005 0x0005 = true := by decide

theorem test_ife_fails : fails 0x0412 0x8000 0x7FFF = true := by decide

theorem test_ifn_holds : holds 0x0413 0x8000 0x7FFF = true := by decide

theorem test_ifn_fails : fails 0x0413 0x0005 0x0005 = true := by decide

theorem test_ifg_holds : holds 0x0414 0x8000 0x7FFF = true := by decide

theorem test_ifg_fails : fails 0x0414 0x0001 0xFFFF = true := by decide

theorem test_ifa_holds : holds 0x0415 0x0001 0xFFFF = true := by decide

theorem test_ifa_fails : fails 0x0415 0x8000 0x7FFF = true := by decide

theorem test_ifl_holds : holds 0x0416 0x0001 0xFFFF = true := by decide

theorem test_ifl_fails : fails 0x0416 0xFFFF 0x0001 = true := by decide

theorem test_ifu_holds : holds 0x0417 0xFFFF 0x0001 = true := by decide

theorem test_ifu_fails : fails 0x0417 0x0001 0xFFFF = true := by decide

/-- `IFG A, 5; IFN B, 0x100; SET [0x2000], 0x30`: a chain of footprints 2 and 3. -/
theorem test_skip_chain :
    after (load0 [0x9814, 0x7C33, 0x0100, 0x7FC1, 0x0030, 0x2000, 0x8C21])
      (fun t => t.pc == 6 && t.tick == 4 && memRead 0x2000 t == 0) = true := by decide

/-- An undefined word and a `PUSH` are skipped without effect. -/
theorem test_skip_undefined :
    (after (load0 [0x8812, 0x0000, 0x8C21]) (fun t => t.pc == 2 && t.halted == none) &&
      after (load0 [0x8812, 0x9B01, 0x8C21]) (fun t => t.pc == 2 && t.sp == 0)) = true := by decide

/-! ### JSR, interrupts and hardware: sections 2.6 and 2.7 -/

/-- `JSR POP`: the push lands on the popped cell. -/
theorem test_jsr_pop :
    after (memWrite 0x40 0x6020 (memWrite 0xFFFE 0x0777 { State.reset with pc := 0x40, sp := 0xFFFE }))
      (fun t => t.pc == 0x777 && t.sp == 0xFFFE && memRead 0xFFFE t == 0x41) = true := by decide

theorem test_jsr_next_word :
    after (load0 [0x7C20, 0x1234]) (fun t => t.pc == 0x1234 && t.sp == 0xFFFF && memRead 0xFFFF t == 2 && t.tick == 4)
      = true := by decide

/-- `INT 0x1234` with `IA = 3`: queued, and delivered by the check of the same step. -/
theorem test_int_delivered :
    after { load0 [0x7D00, 0x1234] with ia := 3, regs := { State.reset.regs with a := 0xAAAA } }
      (fun t => t.iq && t.regs.a == 0x1234 && t.pc == 3 && t.sp == 0xFFFE && memRead 0xFFFF t == 2 &&
        memRead 0xFFFE t == 0xAAAA && t.queue == [] && t.tick == 5) = true := by decide

/-- `INT 0x99` with 256 messages queued halts the core. -/
theorem test_int_overflow :
    after { load0 [0x7D00, 0x0099] with iq := true, queue := List.replicate 256 7 }
      (fun t => t.halted == some (.interruptQueueOverflow 0x99) && t.queue.length == 256 && t.pc == 2) = true := by
  decide +kernel

/-- `IAG POP`: code 0x18 in role `a` is `POP`, and the popped cell is written. -/
theorem test_iag_pop :
    after { load0 [0x6120] with ia := 0x1234, sp := 0x9000 } (fun t => memRead 0x9000 t == 0x1234 && t.sp == 0x9001)
      = true := by decide

theorem test_iag_literal :
    after { load0 [0x9920] with ia := 0x1234 } (fun t => t.pc == 1 && t.regs == State.reset.regs && t.tick == 1) = true := by
  decide

theorem test_ias : after (load0 [0x7D40, 0x1234]) (fun t => t.ia == 0x1234 && t.pc == 2 && t.tick == 2) = true := by decide

/-- `RFI POP`: the operand pops once before the return pops twice. -/
theorem test_rfi_pop :
    after (memWrite 0xFFFD 1 (memWrite 0xFFFE 0xAAAA (memWrite 0xFFFF 3 { load0 [0x6160] with sp := 0xFFFD, iq := true })))
      (fun t => t.regs.a == 0xAAAA && t.pc == 3 && t.sp == 0 && !t.iq && t.tick == 3) = true := by decide

theorem test_rfi_empty_stack :
    after (load0 [0x8560, 9]) (fun t => t.regs.a == 0x8560 && t.pc == 9 && t.sp == 2) = true := by decide

/-- `IAQ 0` with `IA = 0`: queueing ends, and the check of the same step discards one message. -/
theorem test_iaq_zero :
    after { load0 [0x8580] with iq := true, queue := [1, 2] } (fun t => !t.iq && t.queue == [2] && t.tick == 2) = true := by
  decide

theorem test_iaq_one : after (load0 [0x8980]) (fun t => t.iq && t.tick == 2) = true := by decide

/-- The two devices of section 2.7. -/
def devices : List Device :=
  [{ id := 0x12345678, version := 0x0002, manufacturer := 0x9ABCDEF0 },
    { id := 0x7349F615, version := 0x1802, manufacturer := 0x1C6C8B36 }]

/-- A machine with them attached. -/
def withDevices (ws : List Word) : State := { load0 ws with config := { Config.default with devices := devices } }

theorem test_hwn : after (withDevices [0x1600]) (fun t => t.regs.z == 2 && t.tick == 2) = true := by decide

theorem test_hwn_none : after (load0 [0x1600]) (fun t => t.regs.z == 0) = true := by decide

theorem test_hwq :
    after (withDevices [0x8A20]) (fun t => t.regs.a == 0xF615 && t.regs.b == 0x7349 && t.regs.c == 0x1802 &&
      t.regs.x == 0x8B36 && t.regs.y == 0x1C6C && t.tick == 4) = true := by decide

theorem test_hwq_unattached :
    after { withDevices [0x8E20] with regs := { State.reset.regs with a := 1, b := 2, c := 3, x := 4, y := 5 } }
      (fun t => t.regs.a == 0 && t.regs.b == 0 && t.regs.c == 0 && t.regs.x == 0 && t.regs.y == 0) = true := by decide

theorem test_hwi_unattached :
    after (withDevices [0xA240]) (fun t => t.pc == 1 && t.tick == 4 && t.regs == State.reset.regs && t.devCalls == 0)
      = true := by decide

/-- The device that HWI calls may do anything but touch `iq`, the queue, `tick` and `halted`: only those are known. -/
theorem test_hwi_attached :
    after (withDevices [0x8A40]) (fun t => t.tick == 4 && t.halted == none && t.devCalls == 1) = true := by decide

/-! ### Faults: section 2.8 -/

theorem test_reset_memory_halts :
    after State.reset (fun t => t.halted == some (.undefinedOpcode 0 0) && t.pc == 1 && t.tick == 1) = true := by decide

theorem test_undefined_primary :
    after (load0 [0x6318]) (fun t => t.halted == some (.undefinedOpcode 0x6318 0) && t.pc == 1 && t.sp == 0) = true := by
  decide

/-- Section 2.8 under `UNDEF_MODE = nop`: the next word of `a` is fetched. -/
theorem test_undefined_nop :
    after { load0 [0x7C00, 0x1234] with config := { Config.default with undefMode := .nop } }
      (fun t => t.halted == none && t.pc == 2 && t.tick == 2) = true := by decide

/-! ### The host -/

/-- R302: a write at the end of memory is cut off, with no wrap round. -/
theorem test_host_write_truncates :
    (memRead 0xFFFF (hostWrite 0xFFFF [5, 6] State.reset), memRead 0 (hostWrite 0xFFFF [5, 6] State.reset)) = (5, 0) := by
  decide

/-- R303: a read past the end of memory returns what there is. -/
theorem test_host_read_truncates : hostRead 0xFFFF 3 (hostWrite 0xFFFF [5] State.reset) = [5] := by decide

theorem test_snapshot_iq : snapshot { State.reset with iq := true, tick := 9 } = [0, 0, 0, 0, 0, 0, 0, 0, 0, 0, 0, 0, 9, 1] := by
  decide

/-! ### Witnesses: for each statement with hypotheses, a state and operands that meet them together -/

/-- The state after a step of a decoded instruction, where there is one; else the state itself. -/
def run1 (i : Instr) (s : State) : State :=
  match exec i s with
  | .next t => t
  | .fault _ => s
  | .refused _ => s

/-- DecodeInvertsEncode, with both operands bringing a next word, and with the two ends of the embedded literals. -/
theorem witness_DecodeInvertsEncode :
    (Instr.add (.idx .J 0xFFFF) (.pick 0)).wellFormed = true ∧ (Instr.set .pushPop (.small 0)).wellFormed = true ∧
    (Instr.hwi (.small 31)).wellFormed = true := by decide

theorem witness_EncodeInvertsDecode :
    decode 0x5ADE 0x1000 0x2000 = .ok (.sti (.idx .I 0x2000) (.idx .I 0x1000), 3) ∧
    decode 0x8560 0 0 = .ok (.rfi (.small 1), 1) := by decide

/-- DecoderClasses: each clause at the ends of its opcodes. -/
theorem witness_DecoderClasses :
    (fieldO 0x0401 = 0x01 ∧ fieldO 0x041F = 0x1F) ∧
    (fieldO 0x0020 = 0 ∧ fieldB 0x0020 = 0x01 ∧ fieldO 0x0240 = 0 ∧ fieldB 0x0240 = 0x12) ∧
    (fieldO 0x0018 = 0x18 ∧ fieldO 0x001D = 0x1D ∧ fieldO 0x0000 = 0 ∧ fieldB 0x0000 = 0 ∧ fieldB 0x0260 = 0x13) := by
  decide

theorem witness_StepRunsDecodedInstruction :
    (load0 [0x7C01, 0x30]).Running ∧
    decode (memRead 0 (load0 [0x7C01, 0x30])) (memRead 1 (load0 [0x7C01, 0x30])) (memRead 2 (load0 [0x7C01, 0x30])) =
      .ok (.set (.reg .A) (.lit 0x30), 2) := by decide

theorem witness_StepKeepsInvariant :
    (load0 [0x7C01, 0x30]).Inv ∧ ∃ t, step (load0 [0x7C01, 0x30]) = .next t := ⟨by decide, _, rfl⟩

/-- RunsKeepInvariant, for a run with every kind of action. -/
theorem witness_RunsKeepInvariant :
    State.reset.Inv ∧
    ∃ t, runActions [.write 0 [0x8821], .request 5, .step, .read 0 1, .snapshot, .step] State.reset = .next t :=
  ⟨by decide, _, rfl⟩

theorem witness_ParametersNeverChange : ∃ t, step State.reset = .next t := ⟨_, rfl⟩

theorem witness_HandlerAddressWriters : after (load0 [0x7D40, 0x1234]) (fun t => t.ia != State.reset.ia) = true := by
  decide

/-- OnlyTwoFatalFaults: the undefined word, and the full queue. -/
theorem witness_OnlyTwoFatalFaults :
    (State.reset.Running ∧ after State.reset (fun t => t.halted != none) = true) ∧
    (({ load0 [0x7D00, 0x0099] with iq := true, queue := List.replicate 256 7 } : State).Running ∧
      after { load0 [0x7D00, 0x0099] with iq := true, queue := List.replicate 256 7 } (fun t => t.halted != none) = true) := by
  decide +kernel

/-- HaltedForGood: a core that an undefined word has halted, and one whose queue has room for the first of two
requests. -/
theorem witness_HaltedForGood :
    (∃ t, step State.reset = .next t ∧ t.halted = some (.undefinedOpcode 0 0) ∧
      ∃ u, runActions [.step, .request 7, .write 0 [1]] t = .next u) ∧
    (let s : State := { State.reset with halted := some (.undefinedOpcode 0 0), queue := List.replicate 255 0 }
     s.halted = some (.undefinedOpcode 0 0) ∧ ∃ u, runActions [.request 7, .step, .request 8] s = .next u) :=
  ⟨⟨_, rfl, rfl, _, rfl⟩, rfl, _, rfl⟩

theorem witness_UndefinedWordHalts :
    State.reset.Running ∧ State.reset.config.undefMode = .fault ∧
    decodeAtPc State.reset = .error (.extendedOpcode 0) := by decide

theorem witness_UndefinedWordAsNop :
    ({ load0 [0x6318] with config := { Config.default with undefMode := .nop } } : State).Running ∧
    decodeAtPc { load0 [0x6318] with config := { Config.default with undefMode := .nop } } =
      .error (.primaryOpcode 0x18) := by decide

/-- StoreThenLoad: a location that is no literal, and two different locations. -/
theorem witness_StoreThenLoad : (∀ w, Loc.mem 0xFFFF ≠ .lit w) ∧ Loc.mem 0 ≠ Loc.mem 0xFFFF :=
  ⟨(fun _ h => by cases h), by decide⟩

theorem witness_PushThenPop :
    (Operand.reg .X ≠ .pushPop ∧ Operand.reg .Y ≠ .pushPop ∧ Operand.reg .Y ≠ .sp) ∧
    (∀ t, ∀ w, (sample (.reg .Y) .pushPop (advance 1 t)).lb ≠ .lit w) ∧
    ∃ t, exec (.set .pushPop (.reg .X)) State.reset = .next t ∧
      ∃ u, exec (.set (.reg .Y) .pushPop) (advance 1 t) = .next u :=
  ⟨by decide, (fun _ _ h => by cases h), _, rfl, _, rfl⟩

/-- DivisionIdentity, with a dividend of either sign and the ends of the range. -/
theorem witness_DivisionIdentity :
    (1 : Word) ≠ 0 ∧ (0xFFFF : Word) ≠ 0 ∧ 0 ≤ s16 0x7FFF ∧ s16 0x8000 ≤ 0 ∧ 0 ≤ s16 0 ∧ s16 0 ≤ 0 := by decide

/-- AdxSbxResults: both settings of `SBX_EX_SIGNED`. -/
theorem witness_AdxSbxResults :
    State.reset.config.sbxExSigned = false ∧
    ({ State.reset with config := { Config.default with sbxExSigned := true } } : State).config.sbxExSigned = true := by
  decide

/-- ShiftLaws: both settings of `ASR_EX_SIGNED`. -/
theorem witness_ShiftLaws :
    State.reset.config.asrExSigned = true ∧
    ({ State.reset with config := { Config.default with asrExSigned := false } } : State).config.asrExSigned = false := by
  decide

theorem witness_AddThenSub :
    Reg.A ≠ Reg.B ∧ ∃ t, exec (.add (.reg .A) (.reg .B)) State.reset = .next t ∧
      ∃ u, exec (.sub (.reg .A) (.reg .B)) (advance 1 t) = .next u := ⟨by decide, _, rfl, _, rfl⟩

/-- AluFrame: a register destination, for which no register but it, no cell, `SP` and `PC` are claimed, and a memory
destination. -/
theorem witness_AluFrame :
    Instr.add (.reg .A) .pushPop ∈ aluInstrs (.reg .A) .pushPop ∧
    (∃ t, exec (.add (.reg .A) .pushPop) State.reset = .next t) ∧
    (sample (.reg .A) .pushPop State.reset).lb = .reg .A ∧
    Instr.sbx (.mem 0xFFFF) (.small 0) ∈ aluInstrs (.mem 0xFFFF) (.small 0) ∧
    (∃ t, exec (.sbx (.mem 0xFFFF) (.small 0)) State.reset = .next t) ∧
    (sample (.mem 0xFFFF) (.small 0) State.reset).lb = .mem 0xFFFF :=
  ⟨by decide, ⟨_, rfl⟩, rfl, by decide, ⟨_, rfl⟩, rfl⟩

theorem witness_StiStdFrame :
    Instr.std (.reg .A) (.reg .B) ∈ [Instr.sti (.reg .A) (.reg .B), .std (.reg .A) (.reg .B)] ∧
    (∃ t, exec (.std (.reg .A) (.reg .B)) State.reset = .next t) ∧
    (sample (.reg .A) (.reg .B) State.reset).lb ≠ .reg .C ∧ (sample (.reg .A) (.reg .B) State.reset).lb ≠ .exReg :=
  ⟨by decide, ⟨_, rfl⟩, by decide, by decide⟩

/-- ExUntouched: one instruction of each of its four lists. -/
theorem witness_ExUntouched :
    (∃ t, exec (.mod (.reg .A) (.reg .B)) State.reset = .next t) ∧
    (sample (.reg .A) (.reg .B) State.reset).lb ≠ .exReg ∧
    (∃ t, exec (.ife (.reg .A) (.reg .A)) State.reset = .next t) ∧
    (∃ t, exec (.rfi (.small 1)) State.reset = .next t) ∧
    (∃ t, exec (.hwn (.reg .A)) State.reset = .next t) ∧ (sampleA (.reg .A) State.reset).la ≠ .exReg :=
  ⟨⟨_, rfl⟩, by decide, ⟨_, rfl⟩, ⟨_, rfl⟩, ⟨_, rfl⟩, by decide⟩

/-- ExtraCycleCosts: one instruction of each cost; a conditional whose condition holds, and one that fails before one
instruction; a step with no skip, at the highest `EXTRA_IAG`, and one that skips an instruction. -/
theorem witness_ExtraCycleCosts :
    (∃ t, exec (.xor (.reg .A) (.reg .B)) State.reset = .next t) ∧
    (∃ t, exec (.iaq (.reg .A)) State.reset = .next t) ∧ (∃ t, exec (.rfi (.reg .A)) State.reset = .next t) ∧
    (∃ t, exec (.hwi (.reg .A)) State.reset = .next t) ∧ (∃ t, exec (.iag (.reg .A)) State.reset = .next t) ∧
    (∃ t, exec (.ias (.reg .A)) State.reset = .next t) ∧ (∃ t, exec (.hwn (.reg .A)) State.reset = .next t) ∧
    (let s := load0 [0x7C20, 0x1234]
     (Instr.ife (.reg .A) (.small 1), true) ∈
        conditionals (.reg .A) (.small 1) (sample (.reg .A) (.small 1) s).vb (sample (.reg .A) (.small 1) s).va ∧
      (∃ t, exec (.ife (.reg .A) (.small 1)) s = .next t ∧ t.tick = 1) ∧
      (Instr.ife (.reg .A) (.small 2), false) ∈
        conditionals (.reg .A) (.small 2) (sample (.reg .A) (.small 2) s).vb (sample (.reg .A) (.small 2) s).va ∧
      ChainAt s.mem s.pc 0 ∧ ∃ t, exec (.ife (.reg .A) (.small 2)) s = .next t ∧ t.tick = 2) ∧
    (let s : State := { load0 [0x0120] with config := { Config.default with extraIag := 4 } }
     s.Running ∧ ∃ t, step s = .next t ∧ t.tick = s.tick + 5) ∧
    (load0 [0x8812, 0x7C20, 0x1234]).Running ∧ ∃ t, step (load0 [0x8812, 0x7C20, 0x1234]) = .next t ∧ t.tick = 3 :=
  ⟨⟨_, rfl⟩, ⟨_, rfl⟩, ⟨_, rfl⟩, ⟨_, rfl⟩, ⟨_, rfl⟩, ⟨_, rfl⟩, ⟨_, rfl⟩,
    ⟨by decide, ⟨_, rfl, by decide⟩, by decide, by decide, _, rfl, by decide⟩, ⟨rfl, _, rfl, by decide⟩,
    rfl, _, rfl, by decide⟩

theorem witness_ProgramCounterWriters :
    ∃ t, exec (.set .pc (.small 5)) State.reset = .next t ∧ t.pc ≠ State.reset.pc := ⟨_, rfl, by decide⟩

/-- ConditionHolds, for the first and the last of the conditions. -/
theorem witness_ConditionHolds :
    (Instr.ifb (.small 2) (.small 2), true) ∈
      conditionals (.small 2) (.small 2) (sample (.small 2) (.small 2) State.reset).vb
        (sample (.small 2) (.small 2) State.reset).va ∧
    (Instr.ifu (.small 0) (.small 1), true) ∈
      conditionals (.small 0) (.small 1) (sample (.small 0) (.small 1) State.reset).vb
        (sample (.small 0) (.small 1) State.reset).va := by decide

/-- ConditionFailsSkipsChain: a chain of no conditional instruction, and of one. -/
theorem witness_ConditionFailsSkipsChain :
    (Instr.ife (.reg .A) (.small 2), false) ∈
      conditionals (.reg .A) (.small 2) (sample (.reg .A) (.small 2) State.reset).vb
        (sample (.reg .A) (.small 2) State.reset).va ∧
    ChainAt (load0 [0x7C20, 0x1234]).mem 0 0 ∧ ChainAt (load0 [0x7C33, 0x0100, 0x7FC1]).mem 0 1 := by decide

/-- A memory full of one word. -/
@[irreducible] def filled (w : Word) : Memory := writeSpan 0 (List.replicate 65536 w) []

theorem readWord_filled (w x : Word) : readWord (filled w) x = w := by
  have hx := x.isLt
  unfold filled
  rw [readWord_writeSpan, if_pos (Nat.zero_le _), List.getElem?_replicate, if_pos (by omega)]
  rfl

/-- Word 0x0010, `IFB A, A`, all round memory: from reset it fails and skips for ever. -/
def endless : State := { State.reset with mem := filled 0x0010 }

theorem endless_endlessAt (pc : Word) : EndlessAt endless.mem pc := fun k => by
  rw [show endless.mem = filled 0x0010 from rfl, readWord_filled]
  decide

/-- EndlessSkipExactly, the fault: its condition fails and only conditional instructions follow. -/
theorem witness_EndlessSkipExactly :
    (Instr.ifb (.reg .A) (.reg .A), false) ∈
      conditionals (.reg .A) (.reg .A) (sample (.reg .A) (.reg .A) endless).vb
        (sample (.reg .A) (.reg .A) endless).va ∧
    EndlessAt endless.mem endless.pc := ⟨by decide, endless_endlessAt _⟩

/-- StepStopsOnlyInEndlessSkip: the step that never ends. -/
theorem witness_StepStopsOnlyInEndlessSkip : step endless = .fault .skipNeverEnds := by
  have hw : ∀ k, wordAhead k endless = 0x0010 := fun k => readWord_filled 0x0010 (endless.pc + k)
  have hd : decodeAtPc endless = .ok (.ifb (.reg .A) (.reg .A), 1) := by
    unfold decodeAtPc
    rw [hw, hw, hw]
    decide
  rw [step_decoded rfl hd]
  rcases runConditional_cases (.ifb (.reg .A) (.reg .A)) (.reg .A) (.reg .A) condIfb (advance 1 endless) with
    ⟨h, -⟩ | ⟨-, k, -, h, -⟩ | ⟨-, -, h⟩
  · exact absurd h (by decide)
  · exact absurd (endless_endlessAt _) (not_endless_of_chain h)
  · exact congrArg atBoundary h

theorem witness_ConditionalFrame :
    Instr.ifl .pushPop .pushPop ∈ [Instr.ifl .pushPop .pushPop] ∧
    ∃ t, exec (.ifl .pushPop .pushPop) State.reset = .next t := ⟨by decide, _, rfl⟩

/-- IntResult: the queue with its last free place, and full. -/
theorem witness_IntResult :
    ({ State.reset with queue := List.replicate 255 7 } : State).queue.length < 256 ∧
    256 ≤ ({ State.reset with queue := List.replicate 256 7 } : State).queue.length := by decide +kernel

theorem witness_InterruptControlFrame :
    Instr.iaq (.reg .A) ∈ [Instr.int (.reg .A), .ias (.reg .A), .iaq (.reg .A)] ∧
    (∃ t, exec (.iaq (.reg .A)) State.reset = .next t) ∧ Instr.iaq (.reg .A) ≠ .ias (.reg .A) ∧
    Instr.iaq (.reg .A) ≠ .int (.reg .A) ∧ (∃ t, exec (.int (.reg .A)) State.reset = .next t) ∧
    Instr.int (.reg .A) ≠ .iaq (.reg .A) := ⟨by decide, ⟨_, rfl⟩, by decide, by decide, ⟨_, rfl⟩, by decide⟩

theorem witness_StoringExtendedFrame :
    Instr.iag .pushPop ∈ [Instr.iag .pushPop, .hwn .pushPop] ∧
    (∃ t, exec (.iag .pushPop) State.reset = .next t) ∧ (sampleA .pushPop State.reset).la = .mem 0 :=
  ⟨by decide, ⟨_, rfl⟩, rfl⟩

/-- HwqResult, HwiResult: the last device, and the first index past it. -/
theorem witness_HwqResult :
    (∃ d, (withDevices []).config.devices[(sampleA (.small 2) (withDevices [])).va.toNat]? = some d) ∧
    (withDevices []).config.devices.length ≤ (sampleA (.small 3) (withDevices [])).va.toNat := ⟨⟨_, rfl⟩, by decide⟩

theorem witness_HwiResult :
    (sampleA (.small 2) (withDevices [])).va.toNat < (withDevices []).config.devices.length ∧
    (withDevices []).config.devices.length ≤ (sampleA (.small 3) (withDevices [])).va.toNat := by decide

theorem witness_HwiFrame :
    (∃ t, exec (.hwi (.small 2)) (withDevices []) = .next t) ∧
    (withDevices []).config.devices.length ≤ (sampleA (.small 3) (withDevices [])).va.toNat := ⟨⟨_, rfl⟩, by decide⟩

/-- EnqueueRule: the last free place, and none. -/
theorem witness_EnqueueRule :
    ({ State.reset with queue := List.replicate 255 0 } : State).queue.length < 256 ∧
    256 ≤ ({ State.reset with queue := List.replicate 256 0 } : State).queue.length := by decide +kernel

/-- InterruptCheckRule: queueing on, an empty queue, a message to discard, a message to deliver. -/
theorem witness_InterruptCheckRule :
    ({ State.reset with iq := true, queue := [1] } : State).iq = true ∧ State.reset.queue = [] ∧
    (let s : State := { State.reset with queue := [1] }; s.iq = false ∧ s.queue = 1 :: [] ∧ s.ia = 0) ∧
    (let s : State := { State.reset with queue := [1, 2], ia := 1 }; s.iq = false ∧ s.queue = 1 :: [2] ∧ s.ia ≠ 0) := by
  decide

/-- EntryThenReturn: a handler that has stored a word right below the two pushed ones. -/
theorem witness_EntryThenReturn :
    let s : State := { State.reset with queue := [1], ia := 8 }
    let t : State := memWrite 0xFFFD 7 (interruptCheck s)
    (s.iq = false ∧ s.queue = 1 :: [] ∧ s.ia ≠ 0) ∧ t.sp + spDelta .a (.small 1) = (interruptCheck s).sp ∧
    memRead (interruptCheck s).sp t = memRead (interruptCheck s).sp (interruptCheck s) ∧
    memRead ((interruptCheck s).sp + 1) t = memRead ((interruptCheck s).sp + 1) (interruptCheck s) ∧
    ∃ u, exec (.rfi (.small 1)) t = .next u :=
  ⟨by decide, by decide, by decide, by decide, _, rfl⟩

/-- RequestsJoinInOrder: the requests that just fill the queue, and a full queue. -/
theorem witness_RequestsJoinInOrder :
    ({ State.reset with queue := List.replicate 254 0 } : State).queue.length + ([1, 2] : List Word).length ≤ 256 ∧
    256 ≤ ({ State.reset with queue := List.replicate 256 0 } : State).queue.length := by decide +kernel

/-- R310 and R31: a halted core queues a request and keeps its cause. -/
theorem test_request_to_halted_core :
    let s : State := { State.reset with halted := some (.undefinedOpcode 0 0) }
    (deviceRequest 7 s).queue = [7] ∧ (deviceRequest 7 s).halted = some (.undefinedOpcode 0 0) := by decide

theorem witness_MemoryPrimitives : (0xFFFF : Word) ≠ 0 := by decide

theorem witness_CanonicalMemory :
    Memory.wf (load0 [0x7C01]).mem = true ∧
    Memory.wf (writeWord (writeWord [] 5 9) 0 0x7C01) = true ∧ Memory.wf (writeWord (load0 [0x7C01]).mem 5 0) = true := by
  decide

/-- HostWriteRead: the last cell written, a cell below the span, a cell above it. -/
theorem witness_HostWriteRead :
    (0 < [5, (6 : Word)].length ∧ (0xFFFF : Word).toNat + 0 < 65536) ∧ (0xFFFE : Word).toNat < (0xFFFF : Word).toNat ∧
    (0 : Word).toNat + [5, (6 : Word)].length ≤ (2 : Word).toNat ∧ 0 < (hostRead 0xFFFF 3 State.reset).length := by decide

end Sys2Proof.Machine.Tests
end

section
/-! The parameters stay as they are through a whole step (R33). -/

namespace Sys2Proof.Machine

/-- Settles O11, by what a step can do: stay halted, run an instruction (none writes the parameters) or handle an
undefined word, with the interrupt check after the last two. -/
theorem parametersNeverChange : Obligations.ParametersNeverChange := by
  intro s t h
  rcases step_cases h with ⟨-, rfl⟩ | ⟨-, i, n, u, -, he, rfl⟩ | ⟨-, e, -, rfl⟩
  · rfl
  · calc (boundary u).config = u.config := boundary_config u
      _ = (advance n s).config := exec_config he
      _ = s.config := advance_config s n
  · calc (boundary (undefinedOpcode s)).config = (undefinedOpcode s).config := boundary_config _
      _ = s.config := undefinedOpcode_config s

end Sys2Proof.Machine
end

section
/-! The invariant of R35 and R29 through a whole step, and through every run of steps and outside operations. -/

namespace Sys2Proof.Machine

/-- Settles O7, by what a step can do: a halted core stays as it is, an instruction and the handling of an undefined
word keep the invariant, and so does the interrupt check that ends the step. -/
theorem stepKeepsInvariant : Obligations.StepKeepsInvariant := by
  intro s t hs h
  rcases step_cases h with ⟨-, rfl⟩ | ⟨-, i, n, u, -, he, rfl⟩ | ⟨-, e, -, rfl⟩
  · exact hs
  · have ha : (advance n s).Inv := hs
    exact boundary_inv (exec_inv ha he)
  · exact boundary_inv (undefinedOpcode_inv hs)

/-- A write of the host keeps the invariant (R302). -/
theorem hostWrite_inv (addr : Word) (data : List Word) {s : State} (h : s.Inv) : (hostWrite addr data s).Inv := by
  obtain ⟨hm, hq, hd⟩ := h
  exact ⟨wf_writeSpan _ _ _ hm, hq, hd⟩

/-- A device's request keeps the invariant: a message joins the queue only while it has room (R310). -/
theorem deviceRequest_inv (m : Word) {s : State} (h : s.Inv) : (deviceRequest m s).Inv := by
  rcases deviceRequest_cases m s with ⟨hl, e⟩ | ⟨-, -, e⟩ | ⟨-, -, e⟩ <;> rw [e]
  · obtain ⟨hm, -, hd⟩ := h
    exact ⟨hm, by simpa using Nat.succ_le_of_lt hl, hd⟩
  · exact h
  · exact h

/-- Every element of a run keeps the invariant (R311). -/
theorem act_inv {x : Action} {s t : State} (hs : s.Inv) (h : act x s = .next t) : t.Inv := by
  cases x with
  | step => exact stepKeepsInvariant s t hs h
  | write addr data => cases h; exact hostWrite_inv addr data hs
  | read addr n => cases h; exact hs
  | snapshot => cases h; exact hs
  | request m => cases h; exact deviceRequest_inv m hs

/-- Settles O8, by induction on the actions of the run. -/
theorem runsKeepInvariant : Obligations.RunsKeepInvariant := by
  intro xs
  induction xs with
  | nil =>
    intro s t hs h
    cases h
    exact hs
  | cons x xs ih =>
    intro s t hs h
    obtain ⟨u, hu, hrest⟩ := runActions_cons h
    exact ih u t (act_inv hs hu) hrest

end Sys2Proof.Machine
end

section
/-! A whole step does the same where `tick` is `k` higher (R27, R249). -/

namespace Sys2Proof.Machine

theorem advance_charge (n k : Nat) (s : State) : advance n (charge k s) = charge k (advance n s) :=
  charge_comm k n (setPc (s.pc + BitVec.ofNat 16 n) s)

/-- Decoding looks at memory and `pc`, not at `tick`. -/
@[simp] theorem decodeAtPc_charge (k : Nat) (s : State) : decodeAtPc (charge k s) = decodeAtPc s := rfl

theorem undefinedFault_charge (k : Nat) (s : State) : undefinedFault (charge k s) = charge k (undefinedFault s) := by
  rw [undefinedFault_eq, undefinedFault_eq, advance_charge]
  rfl

theorem undefinedNop_charge (k : Nat) (s : State) : undefinedNop (charge k s) = charge k (undefinedNop s) := by
  have hw : ∀ j, wordAhead j (charge k s) = wordAhead j s := fun _ => rfl
  simp only [undefinedNop, hw, advance_charge, sampleA_charge, sample_charge]
  split <;> rfl

theorem undefinedOpcode_charge (k : Nat) (s : State) :
    undefinedOpcode (charge k s) = charge k (undefinedOpcode s) := by
  unfold undefinedOpcode
  rw [charge_config]
  split
  · exact undefinedFault_charge k s
  · exact undefinedNop_charge k s

/-- A step from a higher `tick` answers what it answers from `s`, with `tick` as much higher. -/
theorem step_charge (k : Nat) (s : State) : step (charge k s) = chargeOutcome k (step s) := by
  cases hh : s.halted with
  | some c =>
    rw [step_halted hh, step_halted (s := charge k s) hh]
    rfl
  | none =>
    have hk : (charge k s).halted = none := hh
    cases hd : decodeAtPc s with
    | error e =>
      rw [step_undefined hh hd, step_undefined hk hd, undefinedOpcode_charge, boundary_charge]
      rfl
    | ok p =>
      obtain ⟨i, n⟩ := p
      rw [step_decoded hh hd, step_decoded hk hd, advance_charge, exec_charge, atBoundary_charge]

/-- Settles O13: halted, decoded or undefined, the step commutes with the move of `tick`. -/
theorem tickIsNeverRead : Obligations.TickIsNeverRead := by
  intro k s
  rw [step_charge]
  cases step s <;> rfl

end Sys2Proof.Machine
end

section
/-! Which step can change `IA` (R25, R309). -/

namespace Sys2Proof.Machine

/-- Settles O12, by what a step can do: the interrupt check and an undefined word leave `IA`, and of the instructions
only IAS and HWI can change it. -/
theorem handlerAddressWriters : Obligations.HandlerAddressWriters := by
  intro s t h hne
  rcases step_cases h with ⟨-, rfl⟩ | ⟨-, i, n, u, hd, he, rfl⟩ | ⟨-, e, -, rfl⟩
  · exact absurd rfl hne
  · rw [boundary_ia] at hne
    rcases exec_ia he with hia | ⟨a, rfl | rfl⟩
    · exact absurd hia hne
    · exact ⟨a, n, .inl hd⟩
    · exact ⟨a, n, .inr hd⟩
  · exact absurd (by simp) hne

end Sys2Proof.Machine
end

section
/-! A halted core: what steps and outside operations can still do to it (R31, R234, R310). -/

namespace Sys2Proof.Machine

/-- The queue after the requests of `ms`: they join it in their order while it has room for them (R29, R310). -/
def queueTaking (q ms : List Word) : List Word := q ++ ms.take (256 - q.length)

@[simp] theorem queueTaking_nil (q : List Word) : queueTaking q [] = q := by simp [queueTaking]

/-- Taking one list of requests and then another is taking both. -/
theorem queueTaking_append (q ms ns : List Word) :
    queueTaking q (ms ++ ns) = queueTaking (queueTaking q ms) ns := by
  have hroom : 256 - (q ++ ms.take (256 - q.length)).length = 256 - q.length - ms.length := by
    simp only [List.length_append, List.length_take]
    omega
  simp only [queueTaking, hroom, List.take_append, List.append_assoc]

theorem requested_cons (x : Action) (xs : List Action) : requested (x :: xs) = requested [x] ++ requested xs := by
  cases x <;> rfl

/-- A request to a halted core touches the queue alone: the message joins it or is lost (R31, R310). -/
theorem deviceRequest_of_halted (m : Word) {s : State} {h : Halt} (hs : s.halted = some h) :
    deviceRequest m s = { s with queue := queueTaking s.queue [m] } := by
  rcases deviceRequest_cases m s with ⟨hl, e⟩ | ⟨-, hr, -⟩ | ⟨hl, -, e⟩
  · have htake : [m].take (256 - s.queue.length) = [m] := List.take_of_length_le (by simp; omega)
    rw [e, queueTaking, htake]
  · simp [hs] at hr
  · rw [e, queueTaking, Nat.sub_eq_zero_of_le hl]
    simp

/-- An element of a run changes memory and the queue of a halted core only (R31, R234, R302, R310). -/
theorem act_of_halted {x : Action} {s t : State} {h : Halt} (hs : s.halted = some h) (hx : act x s = .next t) :
    t = { s with queue := queueTaking s.queue (requested [x]), mem := t.mem } := by
  cases x with
  | step =>
    rw [act, step_halted hs] at hx
    cases hx
    simp [requested]
  | write addr data => cases hx; simp [requested, hostWrite]
  | read addr n => cases hx; simp [requested]
  | snapshot => cases hx; simp [requested]
  | request m =>
    cases hx
    rw [deviceRequest_of_halted m hs]
    rfl

/-- A run changes memory and the queue of a halted core only, by induction on its actions. -/
theorem runActions_of_halted (xs : List Action) {s t : State} {h : Halt} (hs : s.halted = some h)
    (hr : runActions xs s = .next t) :
    t = { s with queue := queueTaking s.queue (requested xs), mem := t.mem } := by
  induction xs generalizing s with
  | nil =>
    cases hr
    simp [requested]
  | cons x xs ih =>
    obtain ⟨u, hu, hrest⟩ := runActions_cons hr
    have hxu := act_of_halted hs hu
    have huh : u.halted = some h := by rw [hxu]; exact hs
    rw [requested_cons, queueTaking_append]
    calc t = { u with queue := queueTaking u.queue (requested xs), mem := t.mem } := ih huh hrest
      _ = _ := by rw [hxu]

/-- Settles O16: the step of a halted core is the identity, and a run touches its memory and queue alone, so that its
cause stays. -/
theorem haltedForGood : Obligations.HaltedForGood := by
  refine ⟨fun s h hs => step_halted hs, fun xs s t h hs hr => ?_⟩
  have ht := runActions_of_halted xs hs hr
  exact ⟨by rw [ht]; exact hs, ht⟩

end Sys2Proof.Machine
end

section
/-! The instructions that leave `EX` (R24). -/

namespace Sys2Proof.Machine

@[simp] theorem enqueue_ex (m : Word) (s : State) : (enqueue m s).ex = s.ex := by
  rcases enqueue_cases m s with ⟨-, e⟩ | ⟨-, e⟩ <;> rw [e] <;> rfl

theorem aluMod_ex (vb va : Word) : (aluMod vb va).ex = none := by
  unfold aluMod
  split <;> rfl

theorem aluMdi_ex (vb va : Word) : (aluMdi vb va).ex = none := by
  unfold aluMdi
  split <;> rfl

/-- An operation that computes no `EX` leaves it, unless `EX` is the destination (R108, R120). -/
theorem runAlu_keeps_ex (i : Instr) {b a : Operand} {f : Word → Word → AluOut} {s : State}
    (hf : ∀ vb va, (f vb va).ex = none) (hl : (sample b a s).lb ≠ .exReg) : (runAlu i b a f s).ex = s.ex := by
  rw [runAlu_ex i b a f s hl, hf]
  rfl

/-- SET, MOD, MDI, AND, BOR, XOR, STI and STD write `EX` as their destination only (R121, R128, R129, R132, R133,
R150..R152). -/
theorem exec_keeps_ex_of_basic {b a : Operand} {i : Instr} {s t : State}
    (hi : i ∈ [Instr.set b a, .mod b a, .mdi b a, .and b a, .bor b a, .xor b a, .sti b a, .std b a])
    (hl : (sample b a s).lb ≠ .exReg) (he : exec i s = .next t) : t.ex = s.ex := by
  simp only [List.mem_cons, List.not_mem_nil, or_false] at hi
  rcases hi with rfl | rfl | rfl | rfl | rfl | rfl | rfl | rfl <;> cases he
  · exact runAlu_keeps_ex _ (fun _ _ => rfl) hl
  · exact runAlu_keeps_ex _ aluMod_ex hl
  · exact runAlu_keeps_ex _ aluMdi_ex hl
  · exact runAlu_keeps_ex _ (fun _ _ => rfl) hl
  · exact runAlu_keeps_ex _ (fun _ _ => rfl) hl
  · exact runAlu_keeps_ex _ (fun _ _ => rfl) hl
  · exact (stepIJ_ex 1 _).trans (runAlu_keeps_ex _ (fun _ _ => rfl) hl)
  · exact (stepIJ_ex 0xFFFF _).trans (runAlu_keeps_ex _ (fun _ _ => rfl) hl)

/-- A conditional instruction leaves `EX` (R170). -/
theorem exec_keeps_ex_of_conditional {b a : Operand} {i : Instr} {s t : State} (hi : i ∈ conditionalInstrs b a)
    (he : exec i s = .next t) : t.ex = s.ex := by
  obtain ⟨cond, e⟩ := exec_conditionalInstrs hi s
  obtain ⟨-, -, hex, -, -⟩ := runConditional_frame (e.symm.trans he)
  exact hex

/-- JSR, INT, IAS, RFI, IAQ and HWQ leave `EX` (R190, R200, R202..R204, R206). -/
theorem exec_keeps_ex_of_extended {a : Operand} {i : Instr} {s t : State}
    (hi : i ∈ [Instr.jsr a, .int a, .ias a, .rfi a, .iaq a, .hwq a]) (he : exec i s = .next t) : t.ex = s.ex := by
  simp only [List.mem_cons, List.not_mem_nil, or_false] at hi
  rcases hi with rfl | rfl | rfl | rfl | rfl | rfl <;> cases he <;> rw [runExtended_eq]
  · rfl
  · simp
  · rfl
  · rfl
  · rfl
  · rfl

/-- IAG and HWN write `EX` as their destination only (R201, R205). -/
theorem exec_keeps_ex_of_storing {a : Operand} {i : Instr} {s t : State} (hi : i ∈ [Instr.iag a, .hwn a])
    (hl : (sampleA a s).la ≠ .exReg) (he : exec i s = .next t) : t.ex = s.ex := by
  simp only [List.mem_cons, List.not_mem_nil, or_false] at hi
  rcases hi with rfl | rfl <;> cases he <;> rw [runExtended_eq, store_ex _ _ _ hl] <;> rfl

/-- Settles O37, family by family. -/
theorem exUntouched : Obligations.ExUntouched := fun _ _ _ _ _ he =>
  ⟨fun hi hl => exec_keeps_ex_of_basic hi hl he, fun hi => exec_keeps_ex_of_conditional hi he,
    fun hi => exec_keeps_ex_of_extended hi he, fun hi hl => exec_keeps_ex_of_storing hi hl he⟩

end Sys2Proof.Machine
end

section
/-! The host's register snapshot (R34). -/

namespace Sys2Proof.Machine

/-- Settles O60: the snapshot is a list of 14 words, whose last one is `iq` as a bit. -/
theorem snapshotOrder : Obligations.SnapshotOrder := by
  intro s
  have hiq : (if s.iq then 1 else 0 : Word) = (BitVec.ofBool s.iq).setWidth 16 := by
    cases s.iq <;> rfl
  exact ⟨rfl, rfl, congrArg (fun w => [s.pc, s.sp, s.ex, s.ia, s.tick, w]) hiq⟩

end Sys2Proof.Machine
end

section
/-! Memory: a read after a write (R51), and what the reads of a memory in canonical form determine (log entry 1). -/

namespace Sys2Proof.Machine

/-- Settles O57, by the read and the write of words that the two primitives are. -/
theorem memoryPrimitives : Obligations.MemoryPrimitives := fun a x v s =>
  ⟨readWord_writeWord_same s.mem a v, fun hx => readWord_writeWord_other s.mem a x v hx, rfl⟩

/-- A half word is the high or the low byte of the word that holds it (R54). -/
theorem byteAt_of_readWord (m : Memory) (k : Nat) (hk : k < 131072) :
    byteAt m k = (readWord m (BitVec.ofNat 16 (k / 2))).extractLsb' (if k % 2 = 0 then 8 else 0) 8 := by
  have ha : (BitVec.ofNat 16 (k / 2)).toNat = k / 2 := by
    rw [BitVec.toNat_ofNat, Nat.mod_eq_of_lt (by omega)]
  rw [readWord, ha]
  split
  · next heven =>
    have hkk : 2 * (k / 2) = k := by omega
    rw [append_high, hkk]
  · next hodd =>
    have hkk : 2 * (k / 2) + 1 = k := by omega
    rw [append_low, hkk]

/-- Settles O58: memories that read alike by words agree byte by byte, and in canonical form the bytes determine the
list. -/
theorem canonicalMemory : Obligations.CanonicalMemory := fun m m' hm hm' h =>
  memory_eq_of_byteAt m m' 0 hm hm' fun k hk => by
    rw [byteAt_of_readWord m k hk, byteAt_of_readWord m' k hk, h]

end Sys2Proof.Machine
end

section
/-! The decoder and the encoder are inverse to each other (R70..R74, R76, R77). -/

namespace Sys2Proof.Machine

/-- A word whose fields are those of a basic instruction's shape decodes to it (R70, R76). -/
theorem decode_of_basic {w n₁ n₂ : Word} {i : Instr}
    (h : instrShape i = .basic (fieldO w) (operandB w n₁ n₂) (operandA w n₁)) :
    decode w n₁ n₂ = .ok (i, footprint w) := by
  obtain ⟨hi, ho⟩ := primaryInstr_of_shape h
  simp only [decode, ho, if_false, hi]

/-- A word whose fields are those of an extended instruction's shape decodes to it (R71, R77). -/
theorem decode_of_extended {w n₁ n₂ : Word} {i : Instr} (ho : fieldO w = 0)
    (h : instrShape i = .extended (fieldB w) (operandA w n₁)) : decode w n₁ n₂ = .ok (i, footprint w) := by
  simp only [decode, ho, if_true, extendedInstr_of_shape h]

/-- A next word that an operand brings is the first word of what follows (R72). -/
theorem operandNext_eq_head (op : Operand) (ws : List Word) :
    ∀ m ∈ operandNext op, m = (operandNext op ++ ws).getD 0 0 := by
  cases op <;> simp [operandNext]

/-- The operand `a` is read from its own code and the words that follow the instruction word (R74). -/
theorem operandA_packWord (a : Operand) (b o : BitVec 5) (ws : List Word) :
    operandA (packWord (operandCode a) b o) ((operandNext a ++ ws).getD 0 0) = a := by
  rw [operandA, fieldA_packWord]
  exact operandOf_operandCode a _ (operandNext_eq_head a ws)

/-- The operand `b` is read from its own code and the words after those of `a` (R74). -/
theorem operandB_packWord {a b : Operand} (o : BitVec 5) (ws : List Word) (hb : b.fitsB = true) :
    operandB (packWord (operandCode a) ((operandCode b).setWidth 5) o)
      ((operandNext a ++ (operandNext b ++ ws)).getD 0 0) ((operandNext a ++ (operandNext b ++ ws)).getD 1 0) = b := by
  have hnext : (if needsWord (operandCode a) then (operandNext a ++ (operandNext b ++ ws)).getD 1 0
      else (operandNext a ++ (operandNext b ++ ws)).getD 0 0) = (operandNext b ++ ws).getD 0 0 := by
    rw [needsWord_operandCode]
    cases a <;> rfl
  rw [operandB, fieldA_packWord, fieldB_packWord, operandCode_fits b hb, hnext]
  exact operandOf_operandCode b _ (operandNext_eq_head b ws)

/-- Settles O1, by the format of the instruction: its fields are read back from its word, and its operands from their
codes and the words that follow. -/
theorem decodeInvertsEncode : Obligations.DecodeInvertsEncode := by
  intro i x y hw
  cases hs : instrShape i with
  | basic o b a =>
    have hb : b.fitsB = true := (wellFormed_of_basic hs).symm.trans hw
    have ho : o ≠ 0 := (primaryInstr_of_shape hs).2
    simp only [encode, hs, decodeWords, List.cons_append, List.append_assoc, List.getD_cons_zero,
      List.getD_cons_succ, footprint_basic o b a ho hb]
    apply decode_of_basic
    rw [hs, fieldO_packWord, operandA_packWord, operandB_packWord o _ hb]
  | extended e a =>
    simp only [encode, hs, decodeWords, List.cons_append, List.getD_cons_zero, List.getD_cons_succ,
      footprint_extended e a]
    apply decode_of_extended (fieldO_packWord _ _ _)
    rw [hs, fieldB_packWord, operandA_packWord]

/-- The words of a basic instruction: its own word and one for each operand that needs one (R72). -/
theorem footprint_of_basic {w : Word} (ho : fieldO w ≠ 0) :
    footprint w =
      1 + (if needsWord (fieldA w) then 1 else 0) + (if needsWord ((fieldB w).setWidth 6) then 1 else 0) := by
  simp only [footprint, ho, ne_eq, not_false_eq_true, true_and]

/-- The words of an extended instruction: its own word and one if its operand needs one (R72). -/
theorem footprint_of_extended {w : Word} (ho : fieldO w = 0) :
    footprint w = 1 + (if needsWord (fieldA w) then 1 else 0) := by
  simp only [footprint, ho, ne_eq, not_true_eq_false, false_and, if_false, Nat.add_zero]

/-- Settles O2, by the format of the word: an operand of a code has that code, and brings the next word exactly when the
code needs one. -/
theorem encodeInvertsDecode : Obligations.EncodeInvertsDecode := by
  intro w n₁ n₂ i n hd
  obtain ⟨rfl, ⟨ho, hs⟩ | ⟨ho, hs⟩⟩ := decode_cases hd
  · refine ⟨wellFormed_of_extended hs, ?_⟩
    have hword : packWord (fieldA w) (fieldB w) 0 = w := ho ▸ packWord_fields w
    simp only [encode, hs, operandA, operandCode_operandOf, hword, operandNext_operandOf, footprint_of_extended ho]
    cases needsWord (fieldA w) <;> rfl
  · refine ⟨(wellFormed_of_basic hs).trans (operandOf_fitsB _ _), ?_⟩
    have hcode : ((fieldB w).setWidth 6).setWidth 5 = fieldB w := by simp
    simp only [encode, hs, operandA, operandB, operandCode_operandOf, hcode, packWord_fields, operandNext_operandOf,
      footprint_of_basic ho]
    cases needsWord (fieldA w) <;> cases needsWord ((fieldB w).setWidth 6) <;> rfl

end Sys2Proof.Machine
end

section
/-! Which words are instructions and which are undefined (R76..R78, R81). -/

namespace Sys2Proof.Machine

/-- A word is undefined when its opcode stands in neither table (R76..R78). -/
def UndefinedWord (w : Word) : Prop :=
  (fieldO w ≠ 0 ∧ (fieldO w).toNat ∈ [0x18, 0x19, 0x1C, 0x1D]) ∨
  (fieldO w = 0 ∧ (fieldB w).toNat ∉ [0x01, 0x08, 0x09, 0x0A, 0x0B, 0x0C, 0x10, 0x11, 0x12])

theorem undefinedWord_iff_of_primary {w : Word} (ho : fieldO w ≠ 0) :
    UndefinedWord w ↔ (fieldO w).toNat ∈ [0x18, 0x19, 0x1C, 0x1D] := by
  simp only [UndefinedWord, ho, ne_eq, not_false_eq_true, true_and, false_and, or_false]

theorem undefinedWord_iff_of_extended {w : Word} (ho : fieldO w = 0) :
    UndefinedWord w ↔ (fieldB w).toNat ∉ [0x01, 0x08, 0x09, 0x0A, 0x0B, 0x0C, 0x10, 0x11, 0x12] := by
  simp only [UndefinedWord, ho, ne_eq, not_true_eq_false, true_and, false_and, false_or]

/-- The undefined words are those the decoder refuses (R78, R81). -/
theorem decode_eq_error_iff (w n₁ n₂ : Word) : (∃ u, decode w n₁ n₂ = .error u) ↔ UndefinedWord w := by
  unfold decode
  by_cases ho : fieldO w = 0
  · rw [if_pos ho, undefinedWord_iff_of_extended ho, ← extendedInstr_eq_none_iff _ (operandA w n₁)]
    cases extendedInstr (fieldB w) (operandA w n₁) <;> simp
  · rw [if_neg ho, undefinedWord_iff_of_primary ho,
      ← primaryInstr_eq_none_iff _ (operandB w n₁ n₂) (operandA w n₁) ho]
    cases primaryInstr (fieldO w) (operandB w n₁ n₂) (operandA w n₁) <;> simp

/-- A word that is decoded is not undefined (R81). -/
theorem not_undefinedWord_of_decode {w n₁ n₂ : Word} {p : Instr × Nat} (hd : decode w n₁ n₂ = .ok p) :
    ¬ UndefinedWord w := fun hu => by
  obtain ⟨u, he⟩ := (decode_eq_error_iff w n₁ n₂).2 hu
  cases hd.symm.trans he

/-- Every word that is not undefined is decoded (R81). -/
theorem decode_of_defined {w : Word} (n₁ n₂ : Word) (h : ¬ UndefinedWord w) :
    ∃ i n, decode w n₁ n₂ = .ok (i, n) := by
  cases hd : decode w n₁ n₂ with
  | ok p => exact ⟨p.1, p.2, rfl⟩
  | error u => exact absurd ((decode_eq_error_iff w n₁ n₂).1 ⟨u, hd⟩) h

/-- The 27 primary opcodes of the table are neither 0 nor one of the four undefined ones (R76, R78). -/
theorem defined_of_primary {w : Word}
    (h : fieldO w ∈ [0x01, 0x02, 0x03, 0x04, 0x05, 0x06, 0x07, 0x08, 0x09, 0x0A, 0x0B, 0x0C, 0x0D, 0x0E, 0x0F, 0x10,
      0x11, 0x12, 0x13, 0x14, 0x15, 0x16, 0x17, 0x1A, 0x1B, 0x1E, (0x1F : BitVec 5)]) :
    fieldO w ≠ 0 ∧ ¬ UndefinedWord w := by
  have hopcode : fieldO w ≠ 0 ∧ (fieldO w).toNat ∉ [0x18, 0x19, 0x1C, 0x1D] := by
    revert h
    generalize fieldO w = o
    revert o
    decide
  obtain ⟨ho, hnot⟩ := hopcode
  exact ⟨ho, fun hu => hnot ((undefinedWord_iff_of_primary ho).1 hu)⟩

/-- The four undefined primary opcodes, none of which is 0 (R78). -/
theorem undefined_of_primary {w : Word} (h : fieldO w ∈ [0x18, 0x19, 0x1C, (0x1D : BitVec 5)]) : UndefinedWord w := by
  left
  revert h
  generalize fieldO w = o
  revert o
  decide

/-- The nine extended opcodes are the defined ones (R77, R78). -/
theorem defined_extended_iff {w : Word} (ho : fieldO w = 0) :
    fieldB w ∈ [0x01, 0x08, 0x09, 0x0A, 0x0B, 0x0C, 0x10, 0x11, (0x12 : BitVec 5)] ↔ ¬ UndefinedWord w := by
  rw [undefinedWord_iff_of_extended ho]
  generalize fieldB w = e
  revert e
  decide

/-- Settles O3: the listed opcodes are the defined ones, and the decoder refuses the undefined words and no others. -/
theorem decoderClasses : Obligations.DecoderClasses := by
  intro w n₁ n₂
  refine ⟨fun h => ?_, fun ho h => ?_, fun h => (decode_eq_error_iff w n₁ n₂).2 ?_⟩
  · obtain ⟨ho, hdef⟩ := defined_of_primary h
    obtain ⟨i, n, hd⟩ := decode_of_defined n₁ n₂ hdef
    obtain ⟨-, ⟨h0, -⟩ | ⟨-, hs⟩⟩ := decode_cases hd
    · exact absurd h0 ho
    · exact ⟨i, n, hd, hs⟩
  · obtain ⟨i, n, hd⟩ := decode_of_defined n₁ n₂ ((defined_extended_iff ho).1 h)
    obtain ⟨-, ⟨-, hs⟩ | ⟨h0, -⟩⟩ := decode_cases hd
    · exact ⟨i, n, hd, hs⟩
    · exact absurd ho h0
  · rcases h with h | ⟨ho, hb⟩
    · exact undefined_of_primary h
    · exact not_not.1 fun hdef => hb ((defined_extended_iff ho).2 hdef)

/-- Settles O4: each of the eleven words is decoded by evaluation. -/
theorem wordsFromTheSpecDecode : Obligations.WordsFromTheSpecDecode := by
  unfold Obligations.WordsFromTheSpecDecode
  decide

end Sys2Proof.Machine
end

section
/-! What a step runs and where it has no next state (R80, R180). -/

namespace Sys2Proof.Machine

theorem wordAhead_zero (s : State) : wordAhead 0 s = memRead s.pc s := by
  simp [wordAhead]

/-- Settles O5: the words at `pc` are those the decoder is given, and `advance` counts them. -/
theorem stepRunsDecodedInstruction : Obligations.StepRunsDecodedInstruction := by
  intro s i n hr hd
  have hw : decodeAtPc s = .ok (i, n) := by
    rw [decodeAtPc, wordAhead_zero]
    exact hd
  exact step_decoded hr hw

/-- Everything a step can answer: a next state, or the fault of a conditional instruction at `pc` whose skip never ends
(R80, R180). -/
theorem step_answers (s : State) :
    (∃ t, step s = .next t) ∨
    (step s = .fault .skipNeverEnds ∧ s.Running ∧ isConditional (memRead s.pc s) = true ∧
      EndlessAt s.mem (s.pc + BitVec.ofNat 16 (footprint (memRead s.pc s)))) := by
  cases hh : s.halted with
  | some c => exact .inl ⟨s, step_halted hh⟩
  | none =>
    cases hd : decodeAtPc s with
    | error u => exact .inl ⟨_, step_undefined hh hd⟩
    | ok p =>
      obtain ⟨i, n⟩ := p
      rw [step_decoded hh hd]
      rcases exec_answers i (advance n s) with ⟨t, he⟩ | ⟨he, hi, hend⟩
      · exact .inl ⟨boundary t, congrArg atBoundary he⟩
      · rw [decodeAtPc, wordAhead_zero] at hd
        obtain ⟨rfl, -⟩ := decode_cases hd
        exact .inr ⟨congrArg atBoundary he, hh, isConditional_of_decode hd hi, hend⟩

/-- Settles O15, by what a step can answer. -/
theorem stepStopsOnlyInEndlessSkip : Obligations.StepStopsOnlyInEndlessSkip := by
  intro s
  rcases step_answers s with ⟨t, e⟩ | ⟨e, hr, hc, hend⟩ <;> rw [e]
  · exact ⟨nofun, nofun⟩
  · refine ⟨nofun, fun f h => ?_⟩
    cases h
    exact ⟨rfl, hr, hc, hend⟩

end Sys2Proof.Machine
end

section
/-! The model's step is the spec's own `Step()` (R80), case by case. -/

namespace Sys2Proof.Pseudocode

open Sys2Proof.Machine

variable {s : State}

/-- `Step()` of a halted core (R234). -/
theorem step_of_halted {h : Halt} (hs : s.halted = some h) : step s = .next s :=
  if_pos (by simp [hs])

/-- `Step()` on a defined word of the basic format: operand `a` resolved, then `b`, then both loaded (R80, R107). -/
theorem step_of_primary (hr : s.Running) (ho : fieldO (memRead s.pc s) ≠ 0) (hd : ¬ UndefinedWord (memRead s.pc s)) :
    step s =
      let w := memRead s.pc s
      let ra := resolveCode (fieldA w) .a (advance 1 s)
      let rb := resolveCode ((fieldB w).setWidth 6) .b ra.2
      atBoundary (executePrimary (fieldO w).toNat rb.1 (load ra.1 rb.2) (load rb.1 rb.2)
        (charge (extraPrimary (fieldO w).toNat) rb.2)) :=
  (if_neg (by simp [hr])).trans
    ((if_pos ho).trans (if_neg fun h => hd ((undefinedWord_iff_of_primary ho).2 h)))

/-- `Step()` on a defined word of the extended format (R80, R111). -/
theorem step_of_extended (hr : s.Running) (ho : fieldO (memRead s.pc s) = 0) (hd : ¬ UndefinedWord (memRead s.pc s)) :
    step s =
      let w := memRead s.pc s
      let ra := resolveCode (fieldA w) .a (advance 1 s)
      atBoundary (executeExtended (fieldB w).toNat ra.1 (load ra.1 ra.2)
        (charge (extraExtended ra.2.config (fieldB w).toNat) ra.2)) :=
  (if_neg (by simp [hr])).trans
    ((if_neg fun h => h ho).trans (if_neg fun h => hd ((undefinedWord_iff_of_extended ho).2 h)))

/-- `Step()` on a decoded word is the model's meaning of the instruction, run past its words (R80, R107, R111). -/
theorem step_of_decoded {i : Instr} {n : Nat} (hr : s.Running) (hd : decodeAtPc s = .ok (i, n)) :
    step s = atBoundary (exec i (advance n s)) := by
  rw [decodeAtPc, wordAhead_zero] at hd
  have hdef : ¬ UndefinedWord (memRead s.pc s) := not_undefinedWord_of_decode hd
  obtain ⟨rfl, ⟨ho, hs⟩ | ⟨ho, hs⟩⟩ := decode_cases hd
  · rw [step_of_extended hr ho hdef, executeExtended_eq _ _ _ _ (extendedInstr_of_shape hs)]
    simp only [resolveCode_extended _ s ho, sampleA_va]
  · rw [step_of_primary hr ho hdef, executePrimary_eq _ _ _ _ _ (primaryInstr_of_shape hs).1]
    simp only [resolveCode_b _ s ho, sample_va, sample_vb,
      resolveCode_a_loc _ s (operandB (memRead s.pc s) (wordAhead 1 s) (wordAhead 2 s))]

/-- `UndefinedOpcode(w)` as `Step()` has it: the fault with no interrupt check after it (R232), or the state `t` after
the word's operands are resolved, with the check (R235). -/
def undefinedOutcome (s t : State) : Host.Outcome State Fault Refusal :=
  match s.config.undefMode with
  | .fault => .next (undefinedFault s)
  | .nop => atBoundary (.next t)

/-- The model runs the interrupt check after the fault too, where it does nothing, since the core has halted. -/
theorem undefinedOutcome_undefinedNop (s : State) :
    undefinedOutcome s (undefinedNop s) = .next (boundary (undefinedOpcode s)) := by
  cases hm : s.config.undefMode with
  | fault =>
    have hhalt : (undefinedFault s).halted = some (.undefinedOpcode (memRead s.pc s) s.pc) := by
      rw [undefinedFault_eq, raiseFault_halted]
    simp only [undefinedOutcome, undefinedOpcode, hm, boundary_halted hhalt]
  | nop => simp only [undefinedOutcome, undefinedOpcode, hm, atBoundary]

/-- `Step()` on an undefined word of the basic format (R232, R235). -/
theorem step_of_undefined_primary (hr : s.Running) (ho : fieldO (memRead s.pc s) ≠ 0)
    (hu : UndefinedWord (memRead s.pc s)) :
    step s = undefinedOutcome s (resolveCode ((fieldB (memRead s.pc s)).setWidth 6) .b
      (resolveCode (fieldA (memRead s.pc s)) .a (advance 1 s)).2).2 :=
  (if_neg (by simp [hr])).trans ((if_pos ho).trans (if_pos ((undefinedWord_iff_of_primary ho).1 hu)))

/-- `Step()` on an undefined word of the extended format (R232, R235). -/
theorem step_of_undefined_extended (hr : s.Running) (ho : fieldO (memRead s.pc s) = 0)
    (hu : UndefinedWord (memRead s.pc s)) :
    step s = undefinedOutcome s (resolveCode (fieldA (memRead s.pc s)) .a (advance 1 s)).2 :=
  (if_neg (by simp [hr])).trans
    ((if_neg fun h => h ho).trans (if_pos ((undefinedWord_iff_of_extended ho).1 hu)))

/-- `Step()` on a word the decoder refuses is the model's handling of it, and then the interrupt check (R232, R235). -/
theorem step_of_undefined {u : Undefined} (hr : s.Running) (hd : decodeAtPc s = .error u) :
    step s = .next (boundary (undefinedOpcode s)) := by
  rw [decodeAtPc, wordAhead_zero] at hd
  have hu : UndefinedWord (memRead s.pc s) := (decode_eq_error_iff _ _ _).1 ⟨u, hd⟩
  rw [← undefinedOutcome_undefinedNop]
  by_cases ho : fieldO (memRead s.pc s) = 0
  · rw [step_of_undefined_extended hr ho hu, resolveCode_extended _ s ho]
    simp only [undefinedNop, wordAhead_zero, if_pos ho]
  · rw [step_of_undefined_primary hr ho hu, resolveCode_b _ s ho]
    simp only [undefinedNop, wordAhead_zero, if_neg ho]

/-- Settles O6: halted, decoded or undefined, the model's step and the spec's `Step()` answer the same. -/
theorem stepIsThePseudocode : Obligations.StepIsThePseudocode := by
  intro s
  cases hh : s.halted with
  | some h => rw [step_halted hh, step_of_halted hh]
  | none =>
    cases hd : decodeAtPc s with
    | ok p => rw [step_decoded hh hd, step_of_decoded hh hd]
    | error u => rw [step_undefined hh hd, step_of_undefined hh hd]

end Sys2Proof.Pseudocode
end

section
/-! Locations: what is stored to one is loaded from it, and a literal takes no write (R90, R105, R106). -/

namespace Sys2Proof.Machine

/-- Settles O21, by what a store reaches: its own location, unless that is a literal, and no other. -/
theorem storeThenLoad : Obligations.StoreThenLoad := fun l q v s =>
  ⟨load_store_same l v s, load_store_other l q v s⟩

theorem store_lit (n v : Word) (s : State) : store (.lit n) v s = s := rfl

/-- Settles O22: of the two writes of R108, the one to the literal is dropped and the one to `EX` is left. -/
theorem literalWriteDropped : Obligations.LiteralWriteDropped := fun n v o s =>
  ⟨store_lit n v s, store_lit n o.result (setExIf o.ex s)⟩

end Sys2Proof.Machine
end

section
/-! The forms of operands: their locations, and the move of `SP` that resolving them makes (R91..R104). -/

namespace Sys2Proof.Machine

/-- The value of the embedded literal of code `c` is `c - 0x21` in exact integers, narrowed to a word (R104). -/
theorem smallValue_eq_u16 (k : BitVec 5) : smallValue k = u16 (((0x20 + k.toNat : Nat) : Int) - 0x21) := by
  have hk : k.toNat < 32 := k.isLt
  have hv : (smallValue k).toNat = (65535 + k.toNat) % 65536 := by
    simp [smallValue, BitVec.toNat_sub, Nat.mod_eq_of_lt (show k.toNat < 65536 by omega)]
  exact (u16_eq_of_emod (by rw [hv]; omega)).symm

/-- Settles O19, form by form; only the value of an embedded literal needs arithmetic. -/
theorem operandForms : Obligations.OperandForms := by
  intro role r n k s
  have hsmall : resolve role (.small k) s = (.lit (u16 (((0x20 + k.toNat : Nat) : Int) - 0x21)), s) := by
    rw [← smallValue_eq_u16]
    rfl
  exact ⟨rfl, rfl, rfl, rfl, rfl, rfl, rfl, rfl, rfl, rfl, rfl, rfl, hsmall⟩

/-- Settles O20: the locations and the values are those the definition of sampling names, and the state after
resolution is the one before with `SP` moved by both operands. -/
theorem resolutionMovesOnlySp : Obligations.ResolutionMovesOnlySp := fun b a s =>
  ⟨rfl, rfl, rfl, sample_st b a s, sampleA_st a s, sample_va b a s, sample_vb b a s, sampleA_va a s⟩

end Sys2Proof.Machine
end

section
/-! SET with a stack operand: `PUSH`, `POP`, `PEEK` and `SP` (R95..R97, R110, R112). -/

namespace Sys2Proof.Machine

theorem spDelta_of_ne_pushPop (role : Role) {op : Operand} (h : op ≠ .pushPop) : spDelta role op = 0 := by
  cases op with
  | pushPop => exact absurd rfl h
  | _ => rfl

theorem spDelta_pop : spDelta .a .pushPop = 1 := rfl

theorem spDelta_push : spDelta .b .pushPop = -1 := rfl

/-- The destination is `SP` only for the operand `SP`. -/
theorem sample_lb_eq_spReg {b a : Operand} {s : State} (h : (sample b a s).lb = .spReg) : b = .sp := by
  cases b with
  | sp => rfl
  | _ => cases h

/-- `PUSH` denotes the cell below the one `SP` addresses once the source is resolved (R96). -/
theorem sample_lb_push (a : Operand) (s : State) : (sample .pushPop a s).lb = .mem (s.sp + spDelta .a a - 1) := by
  have hsp : (resolve .a a s).2.sp = s.sp + spDelta .a a := by rw [resolve_state, setSp_sp]
  rw [← hsp]
  rfl

/-- `POP` has the value of the cell that `SP` addresses before the instruction (R95). -/
theorem sample_va_pop (b : Operand) (s : State) : (sample b .pushPop s).va = memRead s.sp s := by
  have hla : (sample b .pushPop s).la = .mem s.sp := rfl
  rw [sample_va, hla, sample_st]
  rfl

/-- SET answers the state with the source's value stored to the destination (R121). -/
theorem exec_set (b a : Operand) (s : State) :
    exec (.set b a) s = .next (store (sample b a s).lb (sample b a s).va (charge 0 (sample b a s).st)) := rfl

theorem exec_set_eq {b a : Operand} {s t : State} (h : exec (.set b a) s = .next t) :
    t = store (sample b a s).lb (sample b a s).va (charge 0 (sample b a s).st) :=
  (Host.Outcome.next.inj ((exec_set b a s).symm.trans h)).symm

/-- SET moves `SP` as its operands do, unless `SP` is the destination (R120). -/
theorem exec_set_sp {b a : Operand} {s t : State} (h : exec (.set b a) s = .next t) (hb : b ≠ .sp) :
    t.sp = s.sp + spDelta .a a + spDelta .b b := by
  rw [exec_set_eq h, store_sp _ _ _ (mt sample_lb_eq_spReg hb), charge_sp, sample_st, setSp_sp]

/-- After SET the destination holds the source's value, unless the destination is a literal (R121). -/
theorem exec_set_load {b a : Operand} {s t : State} (h : exec (.set b a) s = .next t)
    (hb : ∀ w, (sample b a s).lb ≠ .lit w) : load (sample b a s).lb t = (sample b a s).va := by
  rw [exec_set_eq h, load_store_same _ _ _ hb]

/-- SET writes no cell of memory but its destination (R121). -/
theorem exec_set_memRead {b a : Operand} {x : Word} {s t : State} (h : exec (.set b a) s = .next t)
    (hx : (sample b a s).lb ≠ .mem x) : memRead x t = memRead x s := by
  rw [exec_set_eq h, store_mem_frame _ _ _ _ hx, memRead_eq, charge_mem, sample_st, setSp_mem, memRead_eq]

/-- After `SET PUSH, x` `SP` is one below where resolving `x` left it, and addresses the value of `x` (R96, R110). -/
theorem exec_set_push {x : Operand} {s t : State} (h : exec (.set .pushPop x) s = .next t) :
    t.sp = s.sp + spDelta .a x - 1 ∧ memRead t.sp t = (sample .pushPop x s).va := by
  have hsp : t.sp = s.sp + spDelta .a x - 1 := by
    rw [exec_set_sp h (by decide), spDelta_push, sub_eq_add_neg]
  have hload := exec_set_load h (by simp [sample_lb_push])
  rw [sample_lb_push, ← hsp] at hload
  exact ⟨hsp, hload⟩

/-- `SET PUSH, x` lowers `SP` by one where `x` is not `POP` (R110). -/
theorem exec_set_push_of_ne_pop {x : Operand} {s t : State} (hx : x ≠ .pushPop)
    (h : exec (.set .pushPop x) s = .next t) : t.sp = s.sp - 1 ∧ memRead t.sp t = (sample .pushPop x s).va := by
  simpa [spDelta_of_ne_pushPop .a hx] using exec_set_push h

/-- `SET y, POP` raises `SP` by one where `y` is neither `PUSH` nor `SP` (R110). -/
theorem exec_set_pop_sp {y : Operand} {s t : State} (hy : y ≠ .pushPop) (hsp : y ≠ .sp)
    (h : exec (.set y .pushPop) s = .next t) : t.sp = s.sp + 1 := by
  rw [exec_set_sp h hsp, spDelta_pop, spDelta_of_ne_pushPop .b hy, add_zero]

/-- After `SET y, POP` the destination holds the word that `SP` addressed, unless it is a literal (R95, R121). -/
theorem exec_set_pop_load {y : Operand} {s t : State} (h : exec (.set y .pushPop) s = .next t)
    (hy : ∀ w, (sample y .pushPop s).lb ≠ .lit w) : load (sample y .pushPop s).lb t = memRead s.sp s :=
  (exec_set_load h hy).trans (sample_va_pop y s)

/-- Settles O23: the push leaves the word where `SP` points, and there the pop finds it. -/
theorem pushThenPop : Obligations.PushThenPop := by
  intro x y n s t u hx hy hysp hpush hpop
  obtain ⟨hsp, hword⟩ := exec_set_push_of_ne_pop hx hpush
  have hback : u.sp = s.sp :=
    calc u.sp = t.sp + 1 := exec_set_pop_sp (s := advance n t) hy hysp hpop
      _ = s.sp := by rw [hsp, sub_add_cancel]
  exact ⟨hsp, hword, hback, fun hlit => (exec_set_pop_load hpop hlit).trans hword⟩

/-- `SET PUSH, POP` writes the word it popped back to its cell: `SP` is as before and so reads every cell (R110). -/
theorem exec_set_push_pop {s t : State} (h : exec (.set .pushPop .pushPop) s = .next t) :
    t.sp = s.sp ∧ ∀ x, memRead x t = memRead x s := by
  have hdelta : s.sp + spDelta .a .pushPop - 1 = s.sp := by rw [spDelta_pop, add_sub_cancel_right]
  obtain ⟨hsp, hword⟩ := exec_set_push h
  rw [hdelta] at hsp
  rw [hsp, sample_va_pop] at hword
  have hlb : (sample .pushPop .pushPop s).lb = .mem s.sp := by rw [sample_lb_push, hdelta]
  refine ⟨hsp, fun x => ?_⟩
  by_cases hx : x = s.sp
  · rw [hx, hword]
  · exact exec_set_memRead h (by simpa [hlb] using Ne.symm hx)

/-- `SET PEEK, POP` moves the popped word to the cell above (R97, R110). -/
theorem exec_set_peek_pop {s t : State} (h : exec (.set .peek .pushPop) s = .next t) :
    t.sp = s.sp + 1 ∧ memRead t.sp t = memRead s.sp s := by
  have hsp : t.sp = s.sp + 1 := exec_set_pop_sp (by decide) (by decide) h
  have hlb : (sample .peek .pushPop s).lb = .mem (s.sp + 1) := rfl
  have hload := exec_set_pop_load h (by simp [hlb])
  rw [hlb, ← hsp] at hload
  exact ⟨hsp, hload⟩

/-- `SET SP, POP` leaves the popped word in `SP` (R110). -/
theorem exec_set_sp_pop {s t : State} (h : exec (.set .sp .pushPop) s = .next t) : t.sp = memRead s.sp s := by
  have hlb : (sample .sp .pushPop s).lb = .spReg := rfl
  have hload := exec_set_pop_load h (by simp [hlb])
  rwa [hlb] at hload

/-- `SET PUSH, PEEK` puts the word that `SP` addressed in the cell below (R97, R110). -/
theorem exec_set_push_peek {s t : State} (h : exec (.set .pushPop .peek) s = .next t) :
    t.sp = s.sp - 1 ∧ memRead t.sp t = memRead s.sp s := by
  have hva : (sample .pushPop .peek s).va = memRead s.sp s := rfl
  obtain ⟨hsp, hword⟩ := exec_set_push_of_ne_pop (by decide) h
  exact ⟨hsp, hword.trans hva⟩

/-- `SET PUSH, SP` pushes `SP` as the push leaves it (D4, R110). -/
theorem exec_set_push_spReg {s t : State} (h : exec (.set .pushPop .sp) s = .next t) :
    t.sp = s.sp - 1 ∧ memRead t.sp t = s.sp - 1 := by
  have hva : (sample .pushPop .sp s).va = s.sp - 1 := rfl
  obtain ⟨hsp, hword⟩ := exec_set_push_of_ne_pop (by decide) h
  exact ⟨hsp, hword.trans hva⟩

/-- Settles O24, row by row of R110: where a SET with stack operands leaves `SP`, and what its destination holds. -/
theorem stackInteractions : Obligations.StackInteractions := fun s =>
  ⟨⟨_, exec_set _ _ s, exec_set_push_pop (exec_set _ _ s)⟩,
    ⟨_, exec_set _ _ s, exec_set_peek_pop (exec_set _ _ s)⟩,
    ⟨_, exec_set _ _ s, exec_set_push_peek (exec_set _ _ s)⟩,
    ⟨_, exec_set _ _ s, exec_set_sp_pop (exec_set _ _ s)⟩,
    ⟨_, exec_set _ _ s, exec_set_push_spReg (exec_set _ _ s)⟩⟩

end Sys2Proof.Machine
end

section
/-! The results of SET, STI, STD and of integer arithmetic: what each instruction of the template of R120 stores and
leaves in `EX` (R121..R133). -/

namespace Sys2Proof.Machine

section Template

variable {i : Instr} {b a : Operand} {f : Word → Word → AluOut} {s : State} {r e : Word}

/-- An instruction of the template of R120 whose operation computes an `EX`: `EX` is written before the result. -/
theorem exec_eq_of_alu_ex (hi : exec i s = .next (runAlu i b a f s))
    (hf : f (sample b a s).vb (sample b a s).va = ⟨r, some e⟩) :
    exec i s = .next (store (sample b a s).lb r (setEx e (charge (extraCycles s.config i) (sample b a s).st))) := by
  rw [hi, runAlu_eq, hf, setExIf_some]

/-- An instruction of the template of R120 whose operation computes no `EX`: the result is its only write. -/
theorem exec_eq_of_alu_no_ex (hi : exec i s = .next (runAlu i b a f s))
    (hf : f (sample b a s).vb (sample b a s).va = ⟨r, none⟩) :
    exec i s = .next (store (sample b a s).lb r (charge (extraCycles s.config i) (sample b a s).st)) := by
  rw [hi, runAlu_eq, hf, setExIf_none]

end Template

/-- STI is the store of SET at one extra cycle, and then the move of `I` and `J` (R132). -/
theorem exec_sti (b a : Operand) (s : State) :
    exec (.sti b a) s = .next (stepIJ 1 (store (sample b a s).lb (sample b a s).va (charge 1 (sample b a s).st))) := rfl

/-- STD is STI with `I` and `J` moved the other way (R133). -/
theorem exec_std (b a : Operand) (s : State) :
    exec (.std b a) s =
      .next (stepIJ 0xFFFF (store (sample b a s).lb (sample b a s).va (charge 1 (sample b a s).st))) := rfl

/-- Settles O25, by what SET, STI and STD answer. -/
theorem setStiStdResults : Obligations.SetStiStdResults := fun b a s =>
  ⟨exec_set b a s, by rw [exec_sti, stepIJ_eq], by rw [exec_std, stepIJ_eq]⟩

/-- Settles O26, by what ADD and SUB compute. -/
theorem addSubResults : Obligations.AddSubResults := fun _ _ _ =>
  ⟨exec_eq_of_alu_ex rfl (aluAdd_eq _ _), exec_eq_of_alu_ex rfl (aluSub_eq _ _)⟩

/-- The low and the next higher word of an exact integer are the halves of its 32 bits. -/
theorem u16_append_u16 (v : Int) : u16 (shiftRight v 16) ++ u16 v = BitVec.ofInt 32 v := by
  rw [shiftRight_16]
  refine halves_eq ?_
  rw [BitVec.toNat_ofInt]
  omega

/-- MUL computes the halves of the unsigned product (R124). -/
theorem aluMul_halves (vb va : Word) :
    ∃ hi lo : Word, hi ++ lo = vb.setWidth 32 * va.setWidth 32 ∧ aluMul vb va = ⟨lo, some hi⟩ := by
  refine ⟨_, _, ?_, rfl⟩
  rw [u16_append_u16, BitVec.ofInt_mul]
  simp [uint, BitVec.ofNat_toNat]

/-- MLI computes the halves of the two's complement product (R125). -/
theorem aluMli_halves (vb va : Word) :
    ∃ hi lo : Word, hi ++ lo = vb.signExtend 32 * va.signExtend 32 ∧ aluMli vb va = ⟨lo, some hi⟩ := by
  refine ⟨_, _, ?_, rfl⟩
  rw [u16_append_u16, BitVec.ofInt_mul]
  rfl

/-- Settles O27, by the two products. -/
theorem productHalves : Obligations.ProductHalves := by
  intro b a s
  obtain ⟨hi, lo, hp, hmul⟩ := aluMul_halves (sample b a s).vb (sample b a s).va
  obtain ⟨hi', lo', hp', hmli⟩ := aluMli_halves (sample b a s).vb (sample b a s).va
  exact ⟨⟨hi, lo, hp, exec_eq_of_alu_ex rfl hmul⟩, ⟨hi', lo', hp', exec_eq_of_alu_ex rfl hmli⟩⟩

/-- Settles O28, by what DIV and MOD compute. -/
theorem unsignedDivision : Obligations.UnsignedDivision := fun _ _ _ =>
  ⟨exec_eq_of_alu_ex rfl (aluDiv_eq _ _), exec_eq_of_alu_no_ex rfl (aluMod_eq _ _)⟩

/-- Settles O29, by what DVI and MDI compute. -/
theorem signedDivision : Obligations.SignedDivision := fun _ _ _ =>
  ⟨exec_eq_of_alu_ex rfl (aluDvi_eq _ _), exec_eq_of_alu_no_ex rfl (aluMdi_eq _ _)⟩

/-- Settles O31: the operation reads the old `EX`, which resolution does not move. -/
theorem adxSbxResults : Obligations.AdxSbxResults := fun _ _ _ =>
  ⟨exec_eq_of_alu_ex rfl (aluAdx_eq _ _ _),
    fun h => exec_eq_of_alu_ex rfl (by rw [h, aluSbx_unsigned]),
    fun h => exec_eq_of_alu_ex rfl (by rw [h, aluSbx_signed])⟩

end Sys2Proof.Machine
end

section
/-! Identities of the arithmetic: DVI with MDI (R129), and ADD with SUB (R123, conflict C5). -/

namespace Sys2Proof.Machine

/-- MDI by a divisor other than 0 computes the remainder of the quotient rounded toward zero, which needs no narrowing
(R129). -/
theorem s16_aluMdi {va : Word} (vb : Word) (h : va ≠ 0) : s16 (aluMdi vb va).result = (s16 vb).tmod (s16 va) := by
  rw [aluMdi_eq, if_neg h]
  exact BitVec.toInt_srem vb va

theorem s16_ne_zero {w : Word} (h : w ≠ 0) : s16 w ≠ 0 := fun h0 => h (BitVec.eq_of_toInt_eq h0)

/-- Settles O30: quotient and remainder are those of integer division rounded toward zero. -/
theorem divisionIdentity : Obligations.DivisionIdentity := by
  intro vb va h
  rw [s16_aluMdi vb h]
  refine ⟨?_, ?_, ?_, fun hb => Int.tmod_nonneg _ hb, fun hb => ?_⟩
  · rw [aluDvi, if_neg h]
  · rw [truncDiv_eq, Int.mul_tdiv_add_tmod]
  · rw [Int.natAbs_tmod]
    exact Nat.mod_lt _ (Int.natAbs_pos.mpr (s16_ne_zero h))
  · rw [← neg_nonneg, ← Int.neg_tmod]
    exact Int.tmod_nonneg _ (neg_nonneg.mpr hb)

/-- ADD on registers (R122). -/
theorem exec_add_reg {r q : Reg} {s t : State} (h : exec (.add (.reg r) (.reg q)) s = .next t) :
    t.regs = writeReg s.regs r (readReg s.regs r + readReg s.regs q) ∧
    t.ex = if BitVec.uaddOverflow (readReg s.regs r) (readReg s.regs q) then 1 else 0 := by
  cases (addSubResults (.reg r) (.reg q) s).1.symm.trans h
  exact ⟨rfl, rfl⟩

/-- SUB on registers (R123). -/
theorem exec_sub_reg {r q : Reg} {s t : State} (h : exec (.sub (.reg r) (.reg q)) s = .next t) :
    t.regs = writeReg s.regs r (readReg s.regs r - readReg s.regs q) ∧
    t.ex = if (readReg s.regs r).ult (readReg s.regs q) then 0xFFFF else 0 := by
  cases (addSubResults (.reg r) (.reg q) s).2.symm.trans h
  exact ⟨rfl, rfl⟩

/-- A sum wraps exactly where it is below a summand. -/
theorem ult_add_right (x y : Word) : (x + y).ult y = BitVec.uaddOverflow x y := by
  rw [Bool.eq_iff_iff, BitVec.ult, BitVec.uaddOverflow, decide_eq_true_iff, decide_eq_true_iff, BitVec.toNat_add]
  omega

/-- Settles O32: the SUB takes off what the ADD put on, and borrows exactly where the ADD carried. -/
theorem addThenSub : Obligations.AddThenSub := by
  intro r q n s t u hrq hadd hsub
  obtain ⟨htregs, htex⟩ := exec_add_reg hadd
  obtain ⟨huregs, huex⟩ := exec_sub_reg hsub
  have hr : readReg t.regs r = readReg s.regs r + readReg s.regs q := by rw [htregs, readReg_writeReg_same]
  have hq : readReg t.regs q = readReg s.regs q := by rw [htregs, readReg_writeReg_other _ _ _ _ hrq.symm]
  rw [advance_regs, hr, hq] at huregs huex
  refine ⟨?_, ?_⟩
  · rw [huregs, readReg_writeReg_same, add_sub_cancel_right]
  · rw [huex, htex, ult_add_right]
    cases BitVec.uaddOverflow (readReg s.regs r) (readReg s.regs q) <;> rfl

end Sys2Proof.Machine
end

section
/-! What SET, arithmetic, logic and STI and STD leave unchanged (R120, R132, R133). -/

namespace Sys2Proof.Machine

/-- Settles O35, by the frame of the template of R120. -/
theorem aluFrame : Obligations.AluFrame := by
  intro b a s t i hi he
  obtain ⟨f, hf⟩ := exec_alu hi s
  cases hf.symm.trans he
  obtain ⟨hregs, hmem, hcontrol, hsp, hpc, -, -⟩ := runAlu_frame i b a f s
  exact ⟨hregs, hmem, hcontrol, hsp, hpc⟩

/-- The move of STI and STD reaches `I` and `J` only (R132, R133). -/
theorem readReg_stepIJ (d : Word) (s : State) {r : Reg} (hI : r ≠ .I) (hJ : r ≠ .J) :
    readReg (stepIJ d s).regs r = readReg s.regs r := by
  rw [stepIJ, setReg_regs, readReg_writeReg_other _ _ _ _ hJ, setReg_regs, readReg_writeReg_other _ _ _ _ hI]

/-- Settles O36: the store of SET, and then the move of `I` and `J`. -/
theorem stiStdFrame : Obligations.StiStdFrame := by
  intro b a s t i hi he
  have hex (hl : (sample b a s).lb ≠ .exReg) : t.ex = s.ex :=
    exec_keeps_ex_of_basic (List.mem_append_right [.set b a, .mod b a, .mdi b a, .and b a, .bor b a, .xor b a] hi) hl he
  obtain ⟨d, hd⟩ := exec_stiStd (by simpa using hi)
  cases (hd s).symm.trans he
  obtain ⟨hregs, hmem, hcontrol, hsp, hpc, -, -⟩ := runAlu_frame i b a aluSet s
  exact ⟨fun r hI hJ hr => (readReg_stepIJ d _ hI hJ).trans (hregs r hr), hmem, hcontrol, hsp, hpc, hex⟩

end Sys2Proof.Machine
end

section
/-! The results of logic and of the shifts: the shifts are those of the 32-bit value that has `b` as its high or its
low half (R150..R156). -/

namespace Sys2Proof.Machine

/-- Settles O33: AND, BOR and XOR are operations of the template of R120 that compute no `EX`. -/
theorem logicResults : Obligations.LogicResults := fun _ _ _ =>
  ⟨exec_eq_of_alu_no_ex rfl rfl, exec_eq_of_alu_no_ex rfl rfl, exec_eq_of_alu_no_ex rfl rfl⟩

section Halves

variable {p : BitVec 32} {v : Int} {n : Nat}

/-- The low word of an exact integer is the low half of its 32-bit value. -/
theorem u16_eq_setWidth (h : v % 4294967296 = p.toNat) : u16 v = p.setWidth 16 := by
  apply u16_eq_of_emod
  rw [BitVec.toNat_setWidth]
  omega

/-- Where `p` is `v` times 2^16 shifted right, its halves are the shift of `v` itself and the bits shifted out. -/
theorem shiftRight_halves (h : shiftRight (shiftLeft v 16) n % 4294967296 = p.toNat) :
    u16 (shiftRight v n) ++ u16 (shiftRight (shiftLeft v 16) n) = p := by
  rw [shiftRight_eq_high]
  exact halves_eq h

end Halves

/-- SHR computes the halves of `b` above 16 zero bits, shifted right logically (R153, D10). -/
theorem aluShr_halves (vb va : Word) :
    ∃ r e : Word, r ++ e = (vb ++ 0#16) >>> va.toNat ∧ aluShr vb va = ⟨r, some e⟩ :=
  ⟨_, _, shiftRight_halves (shiftRight_unsigned_emod vb va.toNat), rfl⟩

/-- ASR computes the halves of `b` above 16 zero bits, shifted right arithmetically; with `ASR_EX_SIGNED` off its `EX`
is the low half of the logical shift instead (R154, D9, D10). -/
theorem aluAsr_halves (vb va : Word) :
    ∃ r e : Word, r ++ e = (vb ++ 0#16).sshiftRight va.toNat ∧ aluAsr true vb va = ⟨r, some e⟩ ∧
      aluAsr false vb va = ⟨r, some (((vb ++ 0#16) >>> va.toNat).setWidth 16)⟩ := by
  refine ⟨_, _, shiftRight_halves (shiftRight_signed_emod vb va.toNat), rfl, ?_⟩
  rw [← u16_eq_setWidth (shiftRight_unsigned_emod vb va.toNat)]
  rfl

/-- The shift left of a word below 16 zero bits (R155). -/
theorem ofInt_shiftLeft_uint (v : Word) (n : Nat) : BitVec.ofInt 32 (shiftLeft (uint v) n) = (0#16 ++ v) <<< n := by
  apply BitVec.eq_of_toNat_eq
  rw [shiftLeft, uint, ← Nat.cast_mul, BitVec.ofInt_natCast, BitVec.toNat_ofNat, BitVec.toNat_shiftLeft,
    Nat.shiftLeft_eq, BitVec.toNat_append]
  simp

/-- SHL computes the halves of `b` below 16 zero bits, shifted left (R155, D10). -/
theorem aluShl_halves (vb va : Word) :
    ∃ r e : Word, e ++ r = (0#16 ++ vb) <<< va.toNat ∧ aluShl vb va = ⟨r, some e⟩ :=
  ⟨_, _, (u16_append_u16 _).trans (ofInt_shiftLeft_uint vb va.toNat), rfl⟩

/-- Settles O34, by the three shifts. -/
theorem shiftLaws : Obligations.ShiftLaws := by
  intro b a s
  refine ⟨?_, ?_, ?_⟩
  · obtain ⟨r, e, hp, hshr⟩ := aluShr_halves (sample b a s).vb (sample b a s).va
    exact ⟨r, e, hp, exec_eq_of_alu_ex rfl hshr⟩
  · obtain ⟨r, e, hp, hsigned, hunsigned⟩ := aluAsr_halves (sample b a s).vb (sample b a s).va
    refine ⟨r, e, hp, fun hs => ?_, fun hs => ?_⟩
    · exact exec_eq_of_alu_ex rfl (by rw [hs, hsigned])
    · exact exec_eq_of_alu_ex rfl (by rw [hs, hunsigned])
  · obtain ⟨r, e, hp, hshl⟩ := aluShl_halves (sample b a s).vb (sample b a s).va
    exact ⟨r, e, hp, exec_eq_of_alu_ex rfl hshl⟩

end Sys2Proof.Machine
end

section
/-! The conditional instructions and the skip that is part of a failed one (R170..R181). -/

namespace Sys2Proof.Machine

/-- The state a skip of `k + 1` instructions leaves, when a conditional instruction has charged its own cycle (R170,
R179). -/
theorem passedState_resolved (k : Nat) (b a : Operand) (s : State) :
    passedState (k + 1) (charge 1 (sample b a s).st) =
      { charge (k + 2) (sample b a s).st with pc := passed s.mem (k + 1) s.pc } := by
  have hmem : (sample b a s).st.mem = s.mem := by simp [sample_st]
  have hpc : (sample b a s).st.pc = s.pc := by simp [sample_st]
  calc passedState (k + 1) (charge 1 (sample b a s).st)
    _ = setPc (passed (sample b a s).st.mem (k + 1) (sample b a s).st.pc)
          (charge (k + 1) (charge 1 (sample b a s).st)) := rfl
    _ = setPc (passed s.mem (k + 1) s.pc) (charge (k + 2) (sample b a s).st) := by
      rw [hmem, hpc, charge_charge, Nat.add_comm 1 (k + 1)]

/-- Everything a conditional instruction can do: go on, skip the chain that follows, or skip for ever (R170, R180). -/
theorem exec_conditional_cases {b a : Operand} {s : State} {c : Instr × Bool}
    (hc : c ∈ conditionals b a (sample b a s).vb (sample b a s).va) :
    (c.2 = true ∧ exec c.1 s = .next (charge 1 (sample b a s).st)) ∨
    (c.2 = false ∧ ∃ k, ChainAt s.mem s.pc k ∧
      exec c.1 s = .next { charge (k + 2) (sample b a s).st with pc := passed s.mem (k + 1) s.pc }) ∨
    (c.2 = false ∧ EndlessAt s.mem s.pc ∧ exec c.1 s = .fault .skipNeverEnds) := by
  obtain ⟨cond, hcond, hexec, hextra⟩ := exec_conditional hc
  have hcases := runConditional_cases c.1 b a cond s
  rw [hextra, hcond, ← hexec] at hcases
  obtain h | ⟨hfails, k, -, hchain, he⟩ | h := hcases
  · exact .inl h
  · exact .inr (.inl ⟨hfails, k, hchain, he.trans (congrArg _ (passedState_resolved k b a s))⟩)
  · exact .inr (.inr h)

/-- Settles O40: a condition that holds leaves the first of the three outcomes only. -/
theorem conditionHolds : Obligations.ConditionHolds := by
  intro b a s c hc hholds
  obtain ⟨-, he⟩ | ⟨hfails, -⟩ | ⟨hfails, -⟩ := exec_conditional_cases hc
  · exact he
  · exact absurd (hholds.symm.trans hfails) (by decide)
  · exact absurd (hholds.symm.trans hfails) (by decide)

/-- Settles O41: the chain that follows has one length, and a chain is no endless skip. -/
theorem conditionFailsSkipsChain : Obligations.ConditionFailsSkipsChain := by
  intro b a s k c hc hfails _ hchain
  obtain ⟨hholds, -⟩ | ⟨-, j, hj, he⟩ | ⟨-, hend, -⟩ := exec_conditional_cases hc
  · exact absurd (hholds.symm.trans hfails) (by decide)
  · cases chainAt_unique hj hchain
    exact he
  · exact absurd hend (not_endless_of_chain hchain)

/-- Settles O42: the fault is the third outcome, and neither of the other two meets its condition. -/
theorem endlessSkipExactly : Obligations.EndlessSkipExactly := by
  intro b a s c hc
  obtain ⟨hholds, he⟩ | ⟨-, k, hchain, he⟩ | ⟨hfails, hend, he⟩ := exec_conditional_cases hc
  · simp [he, hholds]
  · simp [he, not_endless_of_chain hchain]
  · exact iff_of_true ⟨_, he⟩ ⟨hfails, hend⟩

/-- Settles O43, by the frame of the template of R170. -/
theorem conditionalFrame : Obligations.ConditionalFrame := by
  intro b a s t i hi he
  obtain ⟨cond, hexec⟩ := exec_conditionalInstrs hi s
  obtain ⟨hregs, hmem, hex, hsp, hcontrol⟩ := runConditional_frame (hexec.symm.trans he)
  exact ⟨hregs, fun x => congrArg (readWord · x) hmem, hex, hsp, hcontrol⟩

end Sys2Proof.Machine
end

section
/-! JSR, and which instructions can leave `PC` elsewhere than after their words (R190, R191, conflict C6). -/

namespace Sys2Proof.Machine

/-! ### JSR -/

/-- The cell a push writes is the one that `SP` then addresses (R23). -/
theorem memRead_push_same (v : Word) (s : State) : memRead (s.sp - 1) (push v s) = v := readWord_writeWord_same _ _ _

theorem memRead_push_other (v : Word) {x : Word} (s : State) (h : x ≠ s.sp - 1) : memRead x (push v s) = memRead x s :=
  readWord_writeWord_other _ _ _ _ h

/-- JSR pushes `PC`, which its operand does not move, and continues at the value sampled before (R190). -/
theorem exec_jsr (a : Operand) (s : State) :
    exec (.jsr a) s = .next (setPc (sampleA a s).va (push s.pc (charge 2 (sampleA a s).st))) := by
  have hpc : (sampleA a s).st.pc = s.pc := by rw [sampleA_st, setSp_pc]
  rw [← hpc]
  rfl

/-- Settles O44: the state JSR answers is the one before with its operand resolved, two cycles charged, one word pushed
and `PC` replaced. -/
theorem jsrResult : Obligations.JsrResult := by
  intro a s
  refine ⟨_, exec_jsr a s, rfl, ?_, memRead_push_same s.pc _, ?_, ?_, ?_, ?_,
    fun x hx => (memRead_push_other s.pc _ hx).trans ?_⟩
  all_goals simp [ControlFrame, memRead_eq, sampleA_st]

/-! ### The writers of `PC` -/

@[simp] theorem enqueue_pc (m : Word) (s : State) : (enqueue m s).pc = s.pc := by
  rcases enqueue_cases m s with ⟨-, e⟩ | ⟨-, e⟩ <;> rw [e] <;> rfl

/-- SET, arithmetic, logic, STI and STD write `PC` as their destination only (R120, R132, R133). -/
theorem exec_keeps_pc_of_basic {b a : Operand} {i : Instr} {s t : State}
    (hi : i ∈ aluInstrs b a ++ [Instr.sti b a, .std b a]) (hb : b ≠ .pc) (he : exec i s = .next t) : t.pc = s.pc := by
  have hlb : (sample b a s).lb ≠ .pcReg := mt sample_lb_eq_pcReg hb
  rcases List.mem_append.mp hi with halu | hst
  · obtain ⟨-, -, -, -, hpc⟩ := aluFrame b a s t i halu he
    exact hpc hlb
  · obtain ⟨-, -, -, -, hpc, -⟩ := stiStdFrame b a s t i hst he
    exact hpc hlb

/-- IAG and HWN write `PC` as their destination only (R201, R205). -/
theorem exec_keeps_pc_of_storing {a : Operand} {i : Instr} {s t : State} (hi : i ∈ [Instr.iag a, .hwn a])
    (ha : a ≠ .pc) (he : exec i s = .next t) : t.pc = s.pc := by
  have hla : (sampleA a s).la ≠ .pcReg := mt sampleA_la_eq_pcReg ha
  simp only [List.mem_cons, List.not_mem_nil, or_false] at hi
  rcases hi with rfl | rfl <;> cases he <;> rw [runExtended_eq, store_pc _ _ _ hla] <;> rfl

/-- INT, IAS, IAQ and HWQ leave `PC` (R200, R202, R204, R206). -/
theorem exec_keeps_pc_of_extended {a : Operand} {i : Instr} {s t : State}
    (hi : i ∈ [Instr.int a, .ias a, .iaq a, .hwq a]) (he : exec i s = .next t) : t.pc = s.pc := by
  simp only [List.mem_cons, List.not_mem_nil, or_false] at hi
  rcases hi with rfl | rfl | rfl | rfl <;> cases he <;> rw [runExtended_eq]
  · simp
  · rfl
  · rfl
  · rfl

/-- The extended instructions by what they can do to `PC`: leave it, store to it, or jump. -/
theorem extendedInstrs_by_pc {a : Operand} {i : Instr} (hi : i ∈ extendedInstrs a) :
    i ∈ [Instr.int a, .ias a, .iaq a, .hwq a] ∨ i ∈ [Instr.iag a, .hwn a] ∨ i ∈ [Instr.jsr a, .rfi a, .hwi a] := by
  simp only [extendedInstrs, List.mem_cons, List.not_mem_nil, or_false] at hi ⊢
  tauto

/-- Settles O39, family by family: a storing instruction that changes `PC` has it as its destination. -/
theorem programCounterWriters : Obligations.ProgramCounterWriters := by
  intro s t i he hne
  have basic {b a : Operand} (hi : i ∈ aluInstrs b a ++ [Instr.sti b a, .std b a]) : b = .pc := by
    by_contra hb
    exact hne (exec_keeps_pc_of_basic hi hb he)
  rcases instr_families i with ⟨b, a, hi⟩ | ⟨b, a, hi⟩ | ⟨b, a, hi⟩ | ⟨a, hi⟩
  · have hi' := List.mem_append_left [Instr.sti b a, .std b a] hi
    exact .inl ⟨b, a, hi', basic hi'⟩
  · have hi' : i ∈ aluInstrs b a ++ [Instr.sti b a, .std b a] := List.mem_append_right _ (by simpa using hi)
    exact .inl ⟨b, a, hi', basic hi'⟩
  · exact .inr (.inl ⟨b, a, hi⟩)
  · rcases extendedInstrs_by_pc hi with hkeep | hstore | hjump
    · exact absurd (exec_keeps_pc_of_extended hkeep he) hne
    · obtain rfl : a = .pc := by
        by_contra ha
        exact hne (exec_keeps_pc_of_storing hstore ha he)
      exact .inr (.inr (.inl hstore))
    · exact .inr (.inr (.inr ⟨a, hjump⟩))

end Sys2Proof.Machine
end

section
/-! The instructions that read or set the interrupt state and the device count: what each answers, and what each leaves
unchanged (R200..R202, R204, R205). -/

namespace Sys2Proof.Machine

/-! ### INT -/

theorem exec_int (a : Operand) (s : State) :
    exec (.int a) s = .next (enqueue (sampleA a s).va (charge 3 (sampleA a s).st)) := rfl

/-- Settles O45: INT is one `Enqueue`, and resolving its operand leaves the queue as it was. -/
theorem intResult : Obligations.IntResult := by
  intro a s p
  have hqueue : (charge 3 p.st).queue = s.queue := by simp [p, sampleA_st]
  have hcases := enqueue_cases p.va (charge 3 p.st)
  rw [hqueue] at hcases
  obtain ⟨hlt, he⟩ | ⟨hge, he⟩ := hcases
  · exact ⟨fun _ => congrArg _ he, fun hge => absurd hge (by omega)⟩
  · exact ⟨fun hlt => absurd hlt (by omega), fun _ => congrArg _ he⟩

/-! ### IAG, IAS, IAQ and HWN -/

/-- IAG stores `IA`, which its operand does not move (R201). -/
theorem exec_iag (a : Operand) (s : State) :
    exec (.iag a) s = .next (store (sampleA a s).la s.ia (charge s.config.extraIag (sampleA a s).st)) := by
  have hia : (sampleA a s).st.ia = s.ia := by rw [sampleA_st, setSp_ia]
  rw [← hia]
  rfl

theorem exec_ias (a : Operand) (s : State) :
    exec (.ias a) s = .next (setIa (sampleA a s).va (charge s.config.extraIas (sampleA a s).st)) := rfl

theorem exec_iaq (a : Operand) (s : State) :
    exec (.iaq a) s = .next (setIq (!((sampleA a s).va == 0)) (charge 1 (sampleA a s).st)) := by
  have hflag : decide ((sampleA a s).va ≠ 0) = !((sampleA a s).va == 0) := by simp [BEq.beq]
  rw [← hflag]
  rfl

/-- HWN stores the number of devices, which its operand does not change (R205). -/
theorem exec_hwn (a : Operand) (s : State) :
    exec (.hwn a) s =
      .next (store (sampleA a s).la (BitVec.ofNat 16 s.config.devices.length)
        (charge s.config.extraHwn (sampleA a s).st)) := by
  have hconfig : (sampleA a s).st.config = s.config := by rw [sampleA_st, setSp_config]
  have hcount : deviceCount (charge s.config.extraHwn (sampleA a s).st) = s.config.devices.length :=
    congrArg (·.devices.length) hconfig
  rw [← hcount]
  rfl

/-- Settles O46, instruction by instruction. -/
theorem interruptRegisterResults : Obligations.InterruptRegisterResults := fun a s =>
  ⟨exec_iag a s, exec_ias a s, exec_iaq a s, exec_hwn a s⟩

/-! ### Frames -/

@[simp] theorem enqueue_regs (m : Word) (s : State) : (enqueue m s).regs = s.regs := by
  rcases enqueue_cases m s with ⟨-, e⟩ | ⟨-, e⟩ <;> rw [e] <;> rfl

@[simp] theorem enqueue_sp (m : Word) (s : State) : (enqueue m s).sp = s.sp := by
  rcases enqueue_cases m s with ⟨-, e⟩ | ⟨-, e⟩ <;> rw [e] <;> rfl

@[simp] theorem enqueue_iq (m : Word) (s : State) : (enqueue m s).iq = s.iq := by
  rcases enqueue_cases m s with ⟨-, e⟩ | ⟨-, e⟩ <;> rw [e] <;> rfl

@[simp] theorem enqueue_mem (m : Word) (s : State) : (enqueue m s).mem = s.mem := by
  rcases enqueue_cases m s with ⟨-, e⟩ | ⟨-, e⟩ <;> rw [e] <;> rfl

@[simp] theorem enqueue_devCalls (m : Word) (s : State) : (enqueue m s).devCalls = s.devCalls := by
  rcases enqueue_cases m s with ⟨-, e⟩ | ⟨-, e⟩ <;> rw [e] <;> rfl

/-- Settles O48: INT reaches the queue and `halted` only, IAS only `IA`, IAQ only `iq`. -/
theorem interruptControlFrame : Obligations.InterruptControlFrame := by
  intro a s t i hi he
  simp only [List.mem_cons, List.not_mem_nil, or_false] at hi
  rcases hi with rfl | rfl | rfl
  · cases (exec_int a s).symm.trans he
    simp [memRead_eq, sampleA_st]
  · cases (exec_ias a s).symm.trans he
    simp [memRead_eq, sampleA_st]
  · cases (exec_iaq a s).symm.trans he
    simp [memRead_eq, sampleA_st]

/-- A store reaches no cell but the one its location names (R106). -/
theorem store_memFrame (l : Loc) (v : Word) (s : State) : MemFrame l s (store l v s) :=
  ⟨fun _ hl x hx => store_mem_frame l v s x (by rw [hl]; simpa using hx.symm),
    fun hl x => store_mem_frame l v s x (hl x)⟩

/-- IAG and HWN each store one word to the operand, once it is resolved and the cycles are charged (R201, R205). -/
theorem exec_storing {a : Operand} {i : Instr} (hi : i ∈ [Instr.iag a, .hwn a]) (s : State) :
    ∃ v k, exec i s = .next (store (sampleA a s).la v (charge k (setSp (s.sp + spDelta .a a) s))) := by
  simp only [List.mem_cons, List.not_mem_nil, or_false] at hi
  rw [← sampleA_st]
  rcases hi with rfl | rfl
  · exact ⟨_, _, exec_iag a s⟩
  · exact ⟨_, _, exec_hwn a s⟩

/-- Settles O49, by the frame of the one store that IAG and HWN make. -/
theorem storingExtendedFrame : Obligations.StoringExtendedFrame := by
  intro a s t i hi he
  obtain ⟨v, k, hstore⟩ := exec_storing hi s
  cases hstore.symm.trans he
  exact ⟨store_regs_frame _ v _, store_memFrame _ v _, by simp [ControlFrame], store_sp _ v _, store_pc _ v _,
    store_ex _ v _⟩

end Sys2Proof.Machine
end

section
/-! RFI: the return from an interrupt, after its own operand is resolved (R203, R244). -/

namespace Sys2Proof.Machine

/-- RFI answers the interrupt return of R244 from where its operand leaves `SP`. -/
theorem exec_rfi (a : Operand) (s : State) :
    exec (.rfi a) s =
      .next { charge 2 s with
        iq := false, sp := s.sp + spDelta .a a + 1 + 1,
        regs := { s.regs with a := memRead (s.sp + spDelta .a a) s },
        pc := memRead (s.sp + spDelta .a a + 1) s } := by
  calc exec (.rfi a) s
    _ = .next (returnFromInterrupt (charge 2 (sampleA a s).st)) := rfl
    _ = _ := by rw [sampleA_st, returnFromInterrupt_eq]; rfl

/-- Settles O47, field by field. -/
theorem rfiResult : Obligations.RfiResult := fun a s =>
  ⟨_, exec_rfi a s, rfl, rfl, rfl, BitVec.add_assoc _ 1 1, rfl, fun _ => rfl, rfl, rfl, rfl, rfl, rfl, rfl⟩

end Sys2Proof.Machine
end

section
/-! HWQ: the identity of a device, by its index in the order of attachment (R206, R308). -/

namespace Sys2Proof.Machine

/-- The high and the low word of 32 bits, put together again. -/
theorem append_words (d : BitVec 32) : d.extractLsb' 16 16 ++ d.extractLsb' 0 16 = d :=
  (BitVec.extractLsb'_append_extractLsb'_eq_extractLsb' (start₁ := 0) rfl).trans BitVec.extractLsb'_eq_self

theorem deviceAt_of_getElem? {i : Nat} {s : State} {d : Device} (h : s.config.devices[i]? = some d) :
    deviceAt i s = d := by
  simp [deviceAt, h]

theorem deviceAt_of_le {i : Nat} {s : State} (h : s.config.devices.length ≤ i) :
    deviceAt i s = { id := 0, version := 0, manufacturer := 0 } := by
  simp [deviceAt, h]

/-- The five registers that take an identity, field by field (R206). -/
theorem writeIdentity_eq (d : Device) (s : State) :
    writeIdentity d s =
      { s with regs := { s.regs with
          a := d.id.extractLsb' 0 16, b := d.id.extractLsb' 16 16, c := d.version,
          x := d.manufacturer.extractLsb' 0 16, y := d.manufacturer.extractLsb' 16 16 } } := rfl

/-- HWQ looks its index up in the device list of before, which its operand does not change (R206). -/
theorem exec_hwq (a : Operand) (s : State) :
    exec (.hwq a) s =
      .next (writeIdentity (deviceAt (sampleA a s).va.toNat s) (charge 3 (setSp (s.sp + spDelta .a a) s))) := by
  rw [← sampleA_st]
  have hdevice : deviceAt (sampleA a s).va.toNat s = deviceAt (sampleA a s).va.toNat (charge 3 (sampleA a s).st) := by
    rw [sampleA_st]
    rfl
  rw [hdevice]
  rfl

/-- Settles O50: the identity is that of the device found, whose halves make up its constants again, or zeros. -/
theorem hwqResult : Obligations.HwqResult := by
  intro a s
  refine ⟨_, exec_hwq a s, rfl, fun d hd => ?_, fun hle => ?_, ?_, fun _ => rfl, rfl, rfl, rfl,
    ⟨rfl, rfl, rfl, rfl, rfl, rfl⟩⟩
  · rw [deviceAt_of_getElem? hd]
    exact ⟨append_words d.id, rfl, append_words d.manufacturer⟩
  · rw [deviceAt_of_le hle]
    exact ⟨rfl, rfl, rfl, rfl, rfl⟩
  · simp [writeIdentity_eq, readReg]

end Sys2Proof.Machine
end

section
/-! HWI: the call of a device, a free value (R207, R309, log entry 3). -/

namespace Sys2Proof.Machine

/-- HWI compares its index with the number of devices, which its operand does not change (R207). -/
theorem exec_hwi (a : Operand) (s : State) :
    exec (.hwi a) s =
      .next (if (sampleA a s).va.toNat < s.config.devices.length
        then callDevice (sampleA a s).va.toNat (charge 3 (sampleA a s).st) else charge 3 (sampleA a s).st) := by
  have hcount : deviceCount (charge 3 (sampleA a s).st) = s.config.devices.length := by simp [deviceCount, sampleA_st]
  rw [← hcount]
  rfl

/-- HWI on an index that no device has: the operand and the cycles only (R207). -/
theorem exec_hwi_of_le {a : Operand} {s : State} (h : s.config.devices.length ≤ (sampleA a s).va.toNat) :
    exec (.hwi a) s = .next (charge 3 (sampleA a s).st) := by
  rw [exec_hwi, if_neg (Nat.not_lt.mpr h)]

/-- HWI on the index of a device: the call of the device, once the operand is resolved (R207). -/
theorem exec_hwi_of_lt {a : Operand} {s : State} (h : (sampleA a s).va.toNat < s.config.devices.length) :
    exec (.hwi a) s = .next (callDevice (sampleA a s).va.toNat (charge 3 (sampleA a s).st)) := by
  rw [exec_hwi, if_pos h]

/-- The call of a device by HWI: registers and memory are what the free value of this call gives, and nothing else is
written but the count of calls (R309, D22). The value is given the core after the operand. -/
theorem callDevice_resolved (j : Nat) (a : Operand) (s : State) :
    callDevice j (charge 3 (sampleA a s).st) =
      setDevCalls (s.devCalls + 1)
        (applyDeviceEffect (Config.devInterrupt j s.devCalls (coreView (sampleA a s).st)) (charge 3 s)) := by
  rw [sampleA_st]
  rfl

/-- Settles O51, by whether the index has a device. -/
theorem hwiResult : Obligations.HwiResult := fun a s =>
  ⟨exec_hwi_of_le, fun hlt =>
    ⟨_, _, (exec_hwi_of_lt hlt).trans (congrArg _ (callDevice_resolved _ a s)),
      rfl, rfl, rfl, rfl, rfl, rfl, rfl, rfl⟩⟩

/-- A cell after a device's effect is as before, or the device has written it (R309). -/
theorem memRead_applyDeviceEffect (e : DeviceEffect) (s : State) (x : Word) :
    memRead x (applyDeviceEffect e s) = memRead x s ∨ ∃ w ∈ e.writes, w.1 = x := by
  by_cases hw : ∃ w ∈ e.writes, w.1 = x
  · exact .inr hw
  · exact .inl (readWord_writeAll_other e.writes s.mem x fun w hmem hx => hw ⟨w, hmem, hx⟩)

/-- Settles O52: with no device at the index only `SP` and `tick` can move, and a called device reaches registers and
the cells it writes. -/
theorem hwiFrame : Obligations.HwiFrame := by
  intro a s t he
  obtain hlt | hle := Nat.lt_or_ge (sampleA a s).va.toNat s.config.devices.length
  · rw [exec_hwi_of_lt hlt, callDevice_resolved] at he
    cases he
    exact ⟨rfl, rfl, rfl, rfl, fun hle => absurd hlt (Nat.not_lt.mpr hle), memRead_applyDeviceEffect _ (charge 3 s)⟩
  · rw [exec_hwi_of_le hle, sampleA_st] at he
    cases he
    exact ⟨rfl, rfl, rfl, rfl, fun _ => ⟨rfl, rfl, rfl, rfl, rfl, rfl, fun _ => rfl⟩, fun _ => .inl rfl⟩

end Sys2Proof.Machine
end

section
/-! The two fatal faults, and what an undefined word does under each `UNDEF_MODE` (R231..R236). -/

namespace Sys2Proof.Machine

/-- Settles O14, by what a step can do: an instruction that halts the core is INT on a full queue, and handling an
undefined word halts it in fault mode only. -/
theorem onlyTwoFatalFaults : Obligations.OnlyTwoFatalFaults := by
  intro s t hr hs hhalts
  obtain ⟨hhalted, -⟩ | ⟨-, i, n, u, hd, he, rfl⟩ | ⟨-, u, hd, rfl⟩ := step_cases hs
  · exact absurd hr hhalted
  · rw [State.Running, boundary_halted_eq] at hhalts
    obtain hkeeps | ⟨a, m, rfl, hfull, hcause⟩ := exec_halted he
    · exact absurd (hkeeps.trans hr) hhalts
    · exact .inr ⟨a, n, m, hd, hfull, (boundary_halted_eq u).trans hcause⟩
  · rw [State.Running, boundary_halted_eq] at hhalts
    obtain ⟨hmode, e⟩ | ⟨-, v, e⟩ := undefinedOpcode_cases s
    · exact .inl ⟨⟨u, hd⟩, hmode, by rw [boundary_halted_eq, e, raiseFault_halted]⟩
    · exact absurd (by rw [e, setSp_halted, advance_halted, hr]) hhalts

/-- Under `UNDEF_MODE = fault` an undefined word is fetched and the fault raised (R232). -/
theorem undefinedOpcode_of_fault {s : State} (hmode : s.config.undefMode = .fault) :
    undefinedOpcode s = raiseFault (.undefinedOpcode (memRead s.pc s) s.pc) (advance 1 s) := by
  simp only [undefinedOpcode, hmode, undefinedFault_eq]

theorem undefinedOpcode_of_nop {s : State} (hmode : s.config.undefMode = .nop) :
    undefinedOpcode s = undefinedNop s := by
  simp only [undefinedOpcode, hmode]

/-- Settles O17: the fault leaves the core halted, so that no interrupt check follows. -/
theorem undefinedWordHalts : Obligations.UndefinedWordHalts := by
  intro s u hr hmode hd
  calc step s
    _ = .next (boundary (undefinedOpcode s)) := step_undefined hr hd
    _ = .next (raiseFault (.undefinedOpcode (memRead s.pc s) s.pc) (advance 1 s)) := by
      rw [undefinedOpcode_of_fault hmode, boundary_halted (raiseFault_halted _ _)]

/-- Operand `a` of a word moves `SP` exactly when its code is that of POP (R91, R95). -/
theorem spDelta_operandA (w n : Word) : spDelta .a (operandA w n) = if fieldA w = 0x18 then 1 else 0 := by
  rw [spDelta_code, operandA, operandCode_operandOf]

/-- Operand `b` of a word moves `SP` exactly when its code is that of PUSH (R91, R96). -/
theorem spDelta_operandB (w n₁ n₂ : Word) :
    spDelta .b (operandB w n₁ n₂) = -(if fieldB w = 0x18 then 1 else 0) := by
  have hcode : ∀ b : BitVec 5, b.setWidth 6 = (0x18 : BitVec 6) ↔ b = 0x18 := by decide
  simp only [spDelta_code, operandB, operandCode_operandOf, hcode]
  rw [apply_ite Neg.neg, neg_zero]

/-- Handling an undefined word as a no-operation: `pc` and `tick` go past its footprint, and `SP` moves as POP in field
`a` and PUSH in field `b`, if the format has one, move it (R72, R235). -/
theorem undefinedNop_eq_setSp (s : State) :
    undefinedNop s =
      setSp (s.sp + (if fieldA (memRead s.pc s) = 0x18 then 1 else 0)
          - (if fieldO (memRead s.pc s) ≠ 0 ∧ fieldB (memRead s.pc s) = 0x18 then 1 else 0))
        (advance (footprint (memRead s.pc s)) s) := by
  by_cases ho : fieldO (memRead s.pc s) = 0
  · simp only [undefinedNop, wordAhead_zero, if_pos ho, sampleA_st, spDelta_operandA, advance_sp]
    simp [ho]
  · simp only [undefinedNop, wordAhead_zero, if_neg ho, sample_st, spDelta_operandA, spDelta_operandB, advance_sp]
    simp only [ne_eq, ho, not_false_eq_true, true_and, sub_eq_add_neg]

/-- Settles O18: the state after the no-operation still runs, so that the interrupt check follows. -/
theorem undefinedWordAsNop : Obligations.UndefinedWordAsNop := by
  intro s u hr hmode hd
  have hruns : (undefinedNop s).halted = none := by rw [undefinedNop_eq_setSp]; exact hr
  have hstep : step s = .next (interruptCheck (undefinedNop s)) := by
    rw [step_undefined hr hd, undefinedOpcode_of_nop hmode, boundary_running hruns]
  refine ⟨undefinedNop s, hstep, ?_⟩
  rw [undefinedNop_eq_setSp]
  exact ⟨rfl, rfl, rfl, rfl, rfl, rfl, rfl, rfl, rfl, rfl, rfl, rfl⟩

end Sys2Proof.Machine
end

section
/-! The interrupt queue, the interrupt check, and the way into a handler and back (R237..R244). -/

namespace Sys2Proof.Machine

/-! ### The interrupt check -/

theorem interruptCheck_of_iq {s : State} (hi : s.iq = true) : interruptCheck s = s := by
  simp only [interruptCheck, hi]

theorem interruptCheck_of_empty {s : State} (hq : s.queue = []) : interruptCheck s = s := by
  cases hi : s.iq with
  | true => exact interruptCheck_of_iq hi
  | false => simp only [interruptCheck, hi, hq]

theorem enterInterrupt_sp (m : Word) (s : State) : (enterInterrupt m s).sp = s.sp - 2 := sub_sub s.sp 1 1

/-- The upper one of the two cells that interrupt entry pushes (R243). -/
theorem enterInterrupt_sp_add_one (m : Word) (s : State) : (enterInterrupt m s).sp + 1 = s.sp - 1 :=
  sub_add_cancel (s.sp - 1) 1

/-- On top of the stack of a handler is `A` as it was before (R243). -/
theorem memRead_enterInterrupt_sp (m : Word) (s : State) :
    memRead (enterInterrupt m s).sp (enterInterrupt m s) = s.regs.a :=
  memRead_push_same s.regs.a (push s.pc (setIq true s))

/-- In the cell above it is `PC` as it was before, which the push of `A` does not reach (R243). -/
theorem memRead_enterInterrupt_sp_add_one (m : Word) (s : State) :
    memRead ((enterInterrupt m s).sp + 1) (enterInterrupt m s) = s.pc := by
  have hne : s.sp - 1 ≠ s.sp - 1 - 1 := by bv_omega
  rw [enterInterrupt_sp_add_one]
  calc memRead (s.sp - 1) (enterInterrupt m s)
    _ = memRead (s.sp - 1) (push s.pc (setIq true s)) := memRead_push_other s.regs.a _ hne
    _ = s.pc := memRead_push_same s.pc (setIq true s)

/-- Interrupt entry writes the two pushed cells and no other (R243). -/
theorem memRead_enterInterrupt_other {m x : Word} {s : State} (ha : x ≠ (enterInterrupt m s).sp)
    (hpc : x ≠ (enterInterrupt m s).sp + 1) : memRead x (enterInterrupt m s) = memRead x s := by
  rw [enterInterrupt_sp_add_one] at hpc
  calc memRead x (enterInterrupt m s)
    _ = memRead x (push s.pc (setIq true s)) := memRead_push_other s.regs.a _ ha
    _ = memRead x s := memRead_push_other s.pc (setIq true s) hpc

/-- Settles O54, clause by clause; a delivered message is an interrupt entry with the rest of the queue. -/
theorem interruptCheckRule : Obligations.InterruptCheckRule := by
  intro s m q
  refine ⟨interruptCheck_of_iq, interruptCheck_of_empty, interruptCheck_discard, fun hi hq ha => ?_⟩
  rw [interruptCheck_deliver hi hq ha]
  exact ⟨rfl, rfl, rfl, rfl, enterInterrupt_sp m _, memRead_enterInterrupt_sp m _,
    memRead_enterInterrupt_sp_add_one m _, fun _ => memRead_enterInterrupt_other, rfl, rfl, rfl, rfl, rfl, rfl⟩

/-- Settles O55: the two words RFI pops are those that entry pushed, and two pops undo its two pushes. -/
theorem entryThenReturn : Obligations.EntryThenReturn := by
  intro s t u a m q hi hq ha hsp hcellA hcellPc he
  rw [interruptCheck_deliver hi hq ha] at hsp hcellA hcellPc
  rw [memRead_enterInterrupt_sp] at hcellA
  rw [memRead_enterInterrupt_sp_add_one] at hcellPc
  rw [exec_rfi, hsp, hcellA, hcellPc, enterInterrupt_sp_add_one] at he
  cases he
  exact ⟨rfl, rfl, sub_add_cancel s.sp 1, rfl, fun _ => rfl, rfl, rfl, rfl, rfl⟩

/-! ### The queue -/

/-- Settles O53: each of the two outcomes of `Enqueue` has its own length of the queue. -/
theorem enqueueRule : Obligations.EnqueueRule := by
  intro m s
  obtain ⟨hlt, e⟩ | ⟨hle, e⟩ := enqueue_cases m s
  · exact ⟨fun hle => absurd hlt (Nat.not_lt.mpr hle), fun _ => e⟩
  · exact ⟨fun _ => e, fun hlt => absurd hlt (Nat.not_lt.mpr hle)⟩

/-- A request that finds room joins the queue, whether the core runs or not (R238, R310). -/
theorem deviceRequest_of_lt {m : Word} {s : State} (hlt : s.queue.length < 256) :
    deviceRequest m s = { s with queue := s.queue ++ [m] } := by
  obtain ⟨-, e⟩ | ⟨hle, -⟩ | ⟨hle, -⟩ := deviceRequest_cases m s
  · exact e
  · exact absurd hlt (Nat.not_lt.mpr hle)
  · exact absurd hlt (Nat.not_lt.mpr hle)

/-- A request that finds the queue full halts the core, unless it has its cause already (R31, R238). -/
theorem deviceRequest_of_le {m : Word} {s : State} (hle : 256 ≤ s.queue.length) :
    deviceRequest m s = { s with halted := s.halted.or (some (.interruptQueueOverflow m)) } := by
  obtain ⟨hlt, -⟩ | ⟨-, hr, e⟩ | ⟨-, hh, e⟩ := deviceRequest_cases m s
  · exact absurd hlt (Nat.not_lt.mpr hle)
  · rw [e, hr, Option.none_or]
  · obtain ⟨h, hh⟩ := Option.ne_none_iff_exists'.mp hh
    rw [e, hh, Option.some_or, ← hh]

/-- Requests that all fit join the queue in their order, by induction on them. -/
theorem runActions_requests (ms : List Word) (s : State) (hfit : s.queue.length + ms.length ≤ 256) :
    runActions (ms.map Action.request) s = .next { s with queue := s.queue ++ ms } := by
  induction ms generalizing s with
  | nil => simp [runActions]
  | cons m ms ih =>
    rw [List.length_cons] at hfit
    have hfirst : deviceRequest m s = { s with queue := s.queue ++ [m] } := deviceRequest_of_lt (by omega)
    calc runActions ((m :: ms).map Action.request) s
      _ = runActions (ms.map Action.request) (deviceRequest m s) := rfl
      _ = .next { s with queue := s.queue ++ [m] ++ ms } := by
        rw [hfirst]
        exact ih _ (by simp only [List.length_append, List.length_singleton]; omega)
      _ = .next { s with queue := s.queue ++ m :: ms } := by rw [List.append_assoc, List.singleton_append]

/-- Settles O56: requests that fit, and one that finds the queue full. -/
theorem requestsJoinInOrder : Obligations.RequestsJoinInOrder :=
  ⟨runActions_requests, fun _ _ hle => congrArg Host.Outcome.next (deviceRequest_of_le hle)⟩

end Sys2Proof.Machine
end

section
/-! What instructions and steps cost (R276..R278, R281). -/

namespace Sys2Proof.Machine

/-! ### Instructions -/

/-- An instruction that cannot skip costs its extra cycles (R277). -/
theorem exec_tick_of_not_conditional {i : Instr} {s t : State} (hi : ∀ b a, i ∉ conditionalInstrs b a)
    (he : exec i s = .next t) : t.tick = s.tick + BitVec.ofNat 16 (extraCycles s.config i) := by
  obtain h | ⟨⟨b, a, hcond⟩, -⟩ := exec_tick he
  · exact h
  · exact absurd hcond (hi b a)

/-- The instructions of a list that all cost `n` extra cycles and cannot skip. -/
theorem exec_tick_of_mem {is : List Instr} {n : Nat} {i : Instr} {s t : State} (he : exec i s = .next t)
    (hall : ∀ j ∈ is, extraCycles s.config j = n ∧ ∀ b a, j ∉ conditionalInstrs b a) (hi : i ∈ is) :
    t.tick = s.tick + BitVec.ofNat 16 n := by
  obtain ⟨rfl, hcond⟩ := hall i hi
  exact exec_tick_of_not_conditional hcond he

/-- A conditional instruction costs one cycle, and one more for each instruction of the chain it skips (R277, R278). -/
theorem exec_tick_of_conditional {b a : Operand} {s t : State} {c : Instr × Bool}
    (hc : c ∈ conditionals b a (sample b a s).vb (sample b a s).va) (he : exec c.1 s = .next t) :
    (c.2 = true → t.tick = s.tick + 1) ∧
    (∀ k, c.2 = false → ChainAt s.mem s.pc k → t.tick = s.tick + BitVec.ofNat 16 (1 + (k + 1))) := by
  have htick : (sample b a s).st.tick = s.tick := by simp [sample_st]
  obtain ⟨hholds, e⟩ | ⟨hfails, j, hj, e⟩ | ⟨-, -, e⟩ := exec_conditional_cases hc
  · cases e.symm.trans he
    exact ⟨fun _ => congrArg (· + 1) htick, fun _ hfails _ => absurd (hholds.symm.trans hfails) (by decide)⟩
  · cases e.symm.trans he
    refine ⟨fun hholds => absurd (hholds.symm.trans hfails) (by decide), fun k _ hk => ?_⟩
    cases chainAt_unique hj hk
    have hsum : j + 2 = 1 + (j + 1) := by omega
    calc (sample b a s).st.tick + BitVec.ofNat 16 (j + 2)
      _ = s.tick + BitVec.ofNat 16 (1 + (j + 1)) := by rw [htick, hsum]
  · cases e.symm.trans he

/-! ### Steps -/

/-- Handling an undefined word costs one to three ticks: the word itself in fault mode, its footprint in nop mode
(R232, R235, R276). -/
theorem undefinedOpcode_tick (s : State) :
    ∃ n, 1 ≤ n ∧ n ≤ 3 ∧ (undefinedOpcode s).tick = s.tick + BitVec.ofNat 16 n := by
  obtain ⟨-, e⟩ | ⟨-, v, e⟩ := undefinedOpcode_cases s
  · exact ⟨1, by decide, by decide, congrArg State.tick e⟩
  · obtain ⟨hlow, hhigh⟩ := footprint_bounds (wordAhead 0 s)
    exact ⟨_, hlow, hhigh, congrArg State.tick e⟩

/-- A step of a running core costs one to six ticks, and one more for each instruction it skips (R276..R278, R281). -/
theorem step_tick {s t : State} (hr : s.Running) (h : step s = .next t) : ∃ n k : Nat,
    1 ≤ n ∧ n ≤ 3 + 3 ∧ t.tick = s.tick + BitVec.ofNat 16 (n + k) ∧
    (k ≠ 0 → isConditional (memRead s.pc s) = true ∧
      ChainAt s.mem (s.pc + BitVec.ofNat 16 (footprint (memRead s.pc s))) (k - 1)) := by
  obtain ⟨hhalted, -⟩ | ⟨-, i, n, u, hd, he, rfl⟩ | ⟨-, -, -, rfl⟩ := step_cases h
  · exact absurd hr hhalted
  · obtain ⟨hlow, hhigh⟩ := cost_bounds hd
    have hwords : ∀ m, (advance n s).tick + BitVec.ofNat 16 m = s.tick + BitVec.ofNat 16 (n + m) := fun m => by
      rw [BitVec.ofNat_add, ← BitVec.add_assoc]
      rfl
    rw [boundary_tick]
    obtain htick | ⟨hcond, k, hchain, htick⟩ := exec_tick he
    · exact ⟨_, 0, hlow, hhigh, htick.trans (hwords _), fun hk => absurd rfl hk⟩
    · rw [decodeAtPc, wordAhead_zero] at hd
      obtain ⟨rfl, -⟩ := decode_cases hd
      refine ⟨_, k + 1, hlow, hhigh, ?_, fun _ => ⟨isConditional_of_decode hd hcond, hchain⟩⟩
      rw [htick, hwords, Nat.add_assoc]
      rfl
  · obtain ⟨n, hlow, hhigh, htick⟩ := undefinedOpcode_tick s
    exact ⟨n, 0, hlow, by omega, (boundary_tick _).trans htick, fun hk => absurd rfl hk⟩

/-- Fewer than 65536 ticks do not bring the tick counter back to where it was (R27). -/
theorem add_ofNat_ne_self {m : Nat} (x : Word) (hpos : 0 < m) (hlt : m < 65536) : x + BitVec.ofNat 16 m ≠ x := by
  bv_omega

/-- Settles O38: the lists by the table of extra cycles, the conditional instructions by the chain they skip, and the
bounds of a step by those of its words and extra cycles. -/
theorem extraCycleCosts : Obligations.ExtraCycleCosts := by
  refine ⟨fun b a s t i he => ?_, fun s t hr h => ?_⟩
  · refine ⟨fun hi => ?zero, exec_tick_of_mem he ?one, exec_tick_of_mem he ?two, exec_tick_of_mem he ?three,
      ?iag, ?ias, ?hwn, ?conditional⟩
    case zero =>
      have hcost := exec_tick_of_mem (n := 0) he (by simp [extraCycles, conditionalInstrs]) hi
      exact hcost.trans (BitVec.add_zero s.tick)
    case one | two | three => simp [extraCycles, conditionalInstrs]
    case iag | ias | hwn =>
      rintro rfl
      exact exec_tick_of_not_conditional (by simp [conditionalInstrs]) he
    case conditional =>
      rintro c hc rfl
      exact exec_tick_of_conditional hc he
  · obtain ⟨n, k, hlow, hhigh, htick, hskip⟩ := step_tick hr h
    refine ⟨n, k, hlow, hhigh, htick, fun hk => ?_, hskip⟩
    rw [htick]
    exact add_ofNat_ne_self s.tick (by omega) (by omega)

end Sys2Proof.Machine
end

section
/-! The host's write and read of a span of memory (R302, R303). -/

namespace Sys2Proof.Machine

/-- Every cell after a write of the host: the word of the data that falls on it, or what it held (R302). -/
theorem memRead_hostWrite (addr x : Word) (data : List Word) (s : State) :
    memRead x (hostWrite addr data s) =
      if addr.toNat ≤ x.toNat then (data[x.toNat - addr.toNat]?).getD (memRead x s) else memRead x s :=
  readWord_writeSpan addr.toNat data s.mem x

/-- The words a read of the host returns: as many as asked for and as there are (R303). -/
theorem length_hostRead (addr : Word) (n : Nat) (s : State) :
    (hostRead addr n s).length = min n (65536 - addr.toNat) := by
  simp [hostRead]

/-- The words a read of the host returns come from `addr` upward (R303). -/
theorem getElem_hostRead (addr : Word) (n : Nat) (s : State) (k : Nat) (h : k < (hostRead addr n s).length) :
    (hostRead addr n s)[k] = memRead (addr + BitVec.ofNat 16 k) s := by
  simp [hostRead]

/-- Settles O59, by what a cell holds after the write and by what the read returns. -/
theorem hostWriteRead : Obligations.HostWriteRead := by
  intro addr x data n s
  refine ⟨fun k h _ hx => ?inside, fun hx => ?outside, rfl, length_hostRead addr n s, getElem_hostRead addr n s⟩
  case inside =>
    have hk : x.toNat - addr.toNat = k := by omega
    rw [memRead_hostWrite, if_pos (by omega), hk, List.getElem?_eq_getElem h, Option.getD_some]
  case outside =>
    rw [memRead_hostWrite]
    obtain hbelow | habove := hx
    · rw [if_neg (by omega)]
    · rw [List.getElem?_eq_none (by omega), Option.getD_none, ite_self]

end Sys2Proof.Machine
end

section
/-! The state after reset (R36, R37). -/

namespace Sys2Proof.Machine

/-- Every general register is 0 after reset (R37). -/
theorem readReg_reset (r : Reg) : readReg State.reset.regs r = 0 := by
  cases r <;> rfl

/-- Settles O9: memory, queue and device list are empty after reset. -/
theorem resetMeetsInvariant : Obligations.ResetMeetsInvariant :=
  ⟨⟨rfl, Nat.zero_le 256, Nat.zero_le 65535⟩, rfl⟩

/-- Settles O10: the fields of `State.reset`, and the reads of its registers and of its empty memory. -/
theorem resetValues : Obligations.ResetValues :=
  ⟨rfl, rfl, readReg_reset, rfl, rfl, rfl, rfl, rfl, rfl, readWord_nil, rfl⟩

end Sys2Proof.Machine
end
